-- ==== Sys2Proof/Word.lean ====
section
/-! DEFINITION. The word types of the CHIP-8 core: a byte, a 16-bit word, a register number, a 12-bit address field
(00_scope.md R5, R6). -/

namespace Sys2Proof

/-- A byte of memory and the content of a V register or a timer (R5: REG_W, TIMER_W). -/
abbrev Byte := BitVec 8

/-- The content of `I`, `pc` and a return-stack entry, and an instruction word (R5: I_W, PC_W, STACK_W). -/
abbrev Word := BitVec 16

/-- The number of a V register: the `x` or `y` field, four bits, so never out of range (R20). -/
abbrev Reg := BitVec 4

/-- The immediate address field `nnn` (R91, R93). -/
abbrev Addr12 := BitVec 12

/-- The keypad snapshot: bit `k` is true while key `k` is pressed (R33, R252). -/
abbrev Keys := BitVec 16

end Sys2Proof
end

