-- ==== Sys2Proof/Syntax.lean ====
section
/-! DEFINITION. The instructions, one constructor per row of spec/opcode_table.json (30_encoding.md R95). Fields that
the decoder produces and the instruction does not use (`y` in 8XY6 and 8XYE, R93) are kept, so that no bit of an
encoding is lost. -/

namespace Sys2Proof

/-- The 34 defined instructions (R95) and the default row for every other word (R97, R98). -/
inductive Instr where
  /-- 00E0: clear the framebuffer (R200). -/
  | cls
  /-- 00EE: return (R141). -/
  | ret
  /-- 1NNN: jump (R142). -/
  | jp (nnn : Addr12)
  /-- 2NNN: call (R143). -/
  | call (nnn : Addr12)
  /-- 3XNN: skip if `V[x] = nn` (R144). -/
  | seImm (x : Reg) (nn : Byte)
  /-- 4XNN: skip if `V[x] != nn` (R145). -/
  | sneImm (x : Reg) (nn : Byte)
  /-- 5XY0: skip if `V[x] = V[y]` (R146). -/
  | seReg (x y : Reg)
  /-- 6XNN: `V[x] <- nn` (R161). -/
  | ldImm (x : Reg) (nn : Byte)
  /-- 7XNN: add immediate, no flag (R162). -/
  | addImm (x : Reg) (nn : Byte)
  /-- 8XY0: copy register (R163). -/
  | ldReg (x y : Reg)
  /-- 8XY1: bitwise OR (R164). -/
  | orReg (x y : Reg)
  /-- 8XY2: bitwise AND (R165). -/
  | andReg (x y : Reg)
  /-- 8XY3: bitwise XOR (R166). -/
  | xorReg (x y : Reg)
  /-- 8XY4: add, carry to VF (R167). -/
  | addReg (x y : Reg)
  /-- 8XY5: `V[x] - V[y]`, no-borrow to VF (R168). -/
  | subReg (x y : Reg)
  /-- 8XY6: shift `V[x]` right by one; `y` is decoded and ignored (R169). -/
  | shr (x y : Reg)
  /-- 8XY7: `V[y] - V[x]`, no-borrow to VF (R170). -/
  | subnReg (x y : Reg)
  /-- 8XYE: shift `V[x]` left by one; `y` is decoded and ignored (R171). -/
  | shl (x y : Reg)
  /-- 9XY0: skip if `V[x] != V[y]` (R147). -/
  | sneReg (x y : Reg)
  /-- ANNN: `I <- nnn` (R181). -/
  | ldIndex (nnn : Addr12)
  /-- BNNN: `pc <- V[0] + nnn` (R148). -/
  | jpV0 (nnn : Addr12)
  /-- CXNN: `V[x] <- rnd AND nn` (R172). -/
  | rnd (x : Reg) (nn : Byte)
  /-- DXYN: draw an `n`-row sprite, collision to VF (R202). -/
  | drw (x y : Reg) (n : BitVec 4)
  /-- EX9E: skip if key `V[x]` is pressed (R219). -/
  | skp (x : Reg)
  /-- EXA1: skip if key `V[x]` is not pressed (R220). -/
  | sknp (x : Reg)
  /-- FX07: `V[x] <- delay_timer` (R215). -/
  | ldFromDelay (x : Reg)
  /-- FX0A: wait for a key into `V[x]` (R221). -/
  | waitKey (x : Reg)
  /-- FX15: `delay_timer <- V[x]` (R216). -/
  | ldDelay (x : Reg)
  /-- FX18: `sound_timer <- V[x]` (R217). -/
  | ldSound (x : Reg)
  /-- FX1E: `I <- (I + V[x]) mod 65536` (R182). -/
  | addIndex (x : Reg)
  /-- FX29: glyph address (R183). -/
  | ldGlyph (x : Reg)
  /-- FX33: decimal digits of `V[x]` to memory (R184). -/
  | bcd (x : Reg)
  /-- FX55: store `V[0..x]` (R185). -/
  | storeRegs (x : Reg)
  /-- FX65: load `V[0..x]` (R186). -/
  | loadRegs (x : Reg)
  /-- Any other word, which the instruction carries: a no-op (R97, R98). -/
  | unknown (w : Word)
  deriving DecidableEq, Repr

end Sys2Proof
end

