-- ==== Sys2Proof/WellFormed.lean ====
section
/-! DEFINITION. Which terms of Instr are instructions of the machine. Every field has exactly the width of its bits (R91,
R93), so the one check left is that the default row carries a word no other row matches (R97). -/

namespace Sys2Proof

/-- The unknown opcodes, group by group as R97 lists them (written from that list, not from the decoder). -/
def unknownWord (w : Word) : Bool :=
  match w.toNat / 4096 with
  | 0 => w.toNat != 0x0E0 && w.toNat != 0x0EE
  | 5 => w.toNat % 16 != 0
  | 8 => [8, 9, 0xA, 0xB, 0xC, 0xD, 0xF].contains (w.toNat % 16)
  | 9 => w.toNat % 16 != 0
  | 0xE => !([0x9E, 0xA1].contains (w.toNat % 256))
  | 0xF => !([0x07, 0x0A, 0x15, 0x18, 0x1E, 0x29, 0x33, 0x55, 0x65].contains (w.toNat % 256))
  | _ => false

/-- A term is well-formed when, if it is the default row, its word is one of R97's (R96, R98). -/
def Instr.wellFormed : Instr → Bool
  | .cls | .ret => true
  | .jp _ | .call _ | .ldIndex _ | .jpV0 _ => true
  | .seImm _ _ | .sneImm _ _ | .ldImm _ _ | .addImm _ _ | .rnd _ _ => true
  | .seReg _ _ | .sneReg _ _ | .ldReg _ _ | .orReg _ _ | .andReg _ _ | .xorReg _ _ => true
  | .addReg _ _ | .subReg _ _ | .shr _ _ | .subnReg _ _ | .shl _ _ => true
  | .drw _ _ _ => true
  | .skp _ | .sknp _ | .ldFromDelay _ | .waitKey _ | .ldDelay _ | .ldSound _ => true
  | .addIndex _ | .ldGlyph _ | .bcd _ | .storeRegs _ | .loadRegs _ => true
  | .unknown w => unknownWord w

end Sys2Proof
end

