-- ==== Sys2Proof/Decode.lean ====
section
/-! DEFINITION. The Opcode Decoder (30_encoding.md R90 to R98), total on every word, and after it the encoder, written
from the same table (R92, R95). -/

namespace Sys2Proof

/-! ### Fields of a word (R91) -/

/-- `group = bits[15:12]`. -/
def fieldGroup (w : Word) : BitVec 4 := w.extractLsb' 12 4
/-- `x = bits[11:8]`. -/
def fieldX (w : Word) : Reg := w.extractLsb' 8 4
/-- `y = bits[7:4]`. -/
def fieldY (w : Word) : Reg := w.extractLsb' 4 4
/-- `n = bits[3:0]`. -/
def fieldN (w : Word) : BitVec 4 := w.extractLsb' 0 4
/-- `nn = bits[7:0]`. -/
def fieldNN (w : Word) : Byte := w.extractLsb' 0 8
/-- `nnn = bits[11:0]`. -/
def fieldNNN (w : Word) : Addr12 := w.extractLsb' 0 12

/-! ### The decoder -/

/-- Group 8: nine instructions selected by `n` (R95, R96). -/
def decodeGroup8 (w : Word) : Instr :=
  match (fieldN w).toNat with
  | 0x0 => .ldReg (fieldX w) (fieldY w)
  | 0x1 => .orReg (fieldX w) (fieldY w)
  | 0x2 => .andReg (fieldX w) (fieldY w)
  | 0x3 => .xorReg (fieldX w) (fieldY w)
  | 0x4 => .addReg (fieldX w) (fieldY w)
  | 0x5 => .subReg (fieldX w) (fieldY w)
  | 0x6 => .shr (fieldX w) (fieldY w)
  | 0x7 => .subnReg (fieldX w) (fieldY w)
  | 0xE => .shl (fieldX w) (fieldY w)
  | _ => .unknown w

/-- Group E: two instructions selected by the whole low byte (R95, R96). -/
def decodeGroupE (w : Word) : Instr :=
  match (fieldNN w).toNat with
  | 0x9E => .skp (fieldX w)
  | 0xA1 => .sknp (fieldX w)
  | _ => .unknown w

/-- Group F: nine instructions selected by the whole low byte (R95, R96). -/
def decodeGroupF (w : Word) : Instr :=
  match (fieldNN w).toNat with
  | 0x07 => .ldFromDelay (fieldX w)
  | 0x0A => .waitKey (fieldX w)
  | 0x15 => .ldDelay (fieldX w)
  | 0x18 => .ldSound (fieldX w)
  | 0x1E => .addIndex (fieldX w)
  | 0x29 => .ldGlyph (fieldX w)
  | 0x33 => .bcd (fieldX w)
  | 0x55 => .storeRegs (fieldX w)
  | 0x65 => .loadRegs (fieldX w)
  | _ => .unknown w

/-- The decoder: "No failure mode; every 16-bit value decodes" (R94). Matching is exact, and a word that fits no
pattern is the default row (R96 to R98; the spec's decision D10, log 13). -/
def decode (w : Word) : Instr :=
  match (fieldGroup w).toNat with
  | 0x0 => if w = 0x00E0#16 then .cls else if w = 0x00EE#16 then .ret else .unknown w
  | 0x1 => .jp (fieldNNN w)
  | 0x2 => .call (fieldNNN w)
  | 0x3 => .seImm (fieldX w) (fieldNN w)
  | 0x4 => .sneImm (fieldX w) (fieldNN w)
  | 0x5 => if fieldN w = 0#4 then .seReg (fieldX w) (fieldY w) else .unknown w
  | 0x6 => .ldImm (fieldX w) (fieldNN w)
  | 0x7 => .addImm (fieldX w) (fieldNN w)
  | 0x8 => decodeGroup8 w
  | 0x9 => if fieldN w = 0#4 then .sneReg (fieldX w) (fieldY w) else .unknown w
  | 0xA => .ldIndex (fieldNNN w)
  | 0xB => .jpV0 (fieldNNN w)
  | 0xC => .rnd (fieldX w) (fieldNN w)
  | 0xD => .drw (fieldX w) (fieldY w) (fieldN w)
  | 0xE => decodeGroupE w
  | _ => decodeGroupF w          -- 0xF, the one value left

/-- Two bytes as memory holds them, most significant first (R65, R90; the spec's decision D1, log 6). -/
def wordOfBytes (b0 b1 : Byte) : Word := b0 ++ b1

/-- The more significant byte of a word, the one at the lower address (R65). -/
def highByte (w : Word) : Byte := w.extractLsb' 8 8
/-- The less significant byte of a word, the one at the higher address (R65). -/
def lowByte (w : Word) : Byte := w.extractLsb' 0 8

/-- Why a byte sequence gives no instruction. -/
inductive DecodeError where
  /-- Fewer than two bytes: no instruction is shorter (R90). The machine's fetch always has two. -/
  | truncated
  deriving DecidableEq, Repr

/-- The instruction at the front of a byte sequence, with the rest of it. -/
def decodeBytes : List Byte → Except DecodeError (Instr × List Byte)
  | b0 :: b1 :: rest => .ok (decode (wordOfBytes b0 b1), rest)
  | _ => .error .truncated

/-- The instruction of an opcode-table row whose bits are `w`, bit 0 the least significant bit of the word. Every row
has 16 bits (R90); a longer instruction does not exist. -/
def decodeTableWord (nbits w : Nat) : Option Instr :=
  if nbits ≤ 16 then
    let word := BitVec.ofNat 16 (w % 2 ^ nbits)
    match decodeBytes [highByte word, lowByte word] with
    | .ok (i, _) => some i
    | .error _ => none
  else none

/-! ### The encoder -/

/-- Formats XY and XYN: four nibbles (R92). -/
def packXYN (g : BitVec 4) (x y : Reg) (n : BitVec 4) : Word := (g ++ x) ++ (y ++ n)
/-- Formats XI and XK: group, register, low byte (R92). -/
def packXNN (g : BitVec 4) (x : Reg) (nn : Byte) : Word := (g ++ x) ++ nn
/-- Format A: group and address (R92). -/
def packNNN (g : BitVec 4) (nnn : Addr12) : Word := g ++ nnn

/-- The word of an instruction, row by row as R95 gives it. -/
def encode : Instr → Word
  | .cls => 0x00E0#16
  | .ret => 0x00EE#16
  | .jp nnn => packNNN 0x1 nnn
  | .call nnn => packNNN 0x2 nnn
  | .seImm x nn => packXNN 0x3 x nn
  | .sneImm x nn => packXNN 0x4 x nn
  | .seReg x y => packXYN 0x5 x y 0x0
  | .ldImm x nn => packXNN 0x6 x nn
  | .addImm x nn => packXNN 0x7 x nn
  | .ldReg x y => packXYN 0x8 x y 0x0
  | .orReg x y => packXYN 0x8 x y 0x1
  | .andReg x y => packXYN 0x8 x y 0x2
  | .xorReg x y => packXYN 0x8 x y 0x3
  | .addReg x y => packXYN 0x8 x y 0x4
  | .subReg x y => packXYN 0x8 x y 0x5
  | .shr x y => packXYN 0x8 x y 0x6
  | .subnReg x y => packXYN 0x8 x y 0x7
  | .shl x y => packXYN 0x8 x y 0xE
  | .sneReg x y => packXYN 0x9 x y 0x0
  | .ldIndex nnn => packNNN 0xA nnn
  | .jpV0 nnn => packNNN 0xB nnn
  | .rnd x nn => packXNN 0xC x nn
  | .drw x y n => packXYN 0xD x y n
  | .skp x => packXNN 0xE x 0x9E
  | .sknp x => packXNN 0xE x 0xA1
  | .ldFromDelay x => packXNN 0xF x 0x07
  | .waitKey x => packXNN 0xF x 0x0A
  | .ldDelay x => packXNN 0xF x 0x15
  | .ldSound x => packXNN 0xF x 0x18
  | .addIndex x => packXNN 0xF x 0x1E
  | .ldGlyph x => packXNN 0xF x 0x29
  | .bcd x => packXNN 0xF x 0x33
  | .storeRegs x => packXNN 0xF x 0x55
  | .loadRegs x => packXNN 0xF x 0x65
  | .unknown w => w

/-- The two bytes of an instruction in the order memory holds them (R90). -/
def encodeBytes (i : Instr) : List Byte := [highByte (encode i), lowByte (encode i)]

/-! ### The opcode table (R95, R103) -/

/-- A row of the opcode table: a word is the instruction when `w AND mask = bits`. -/
structure OpcodeRow where
  mnemonic : String
  bits : Word
  mask : Word
  deriving DecidableEq, Repr

/-- `w AND mask = match` (R95). -/
def OpcodeRow.fits (r : OpcodeRow) (w : Word) : Bool := w &&& r.mask == r.bits

/-- The 34 rows of defined instructions, as R95 prints them. -/
def opcodeRows : List OpcodeRow :=
  [⟨"00E0", 0x00E0, 0xFFFF⟩, ⟨"00EE", 0x00EE, 0xFFFF⟩, ⟨"1NNN", 0x1000, 0xF000⟩, ⟨"2NNN", 0x2000, 0xF000⟩,
   ⟨"3XNN", 0x3000, 0xF000⟩, ⟨"4XNN", 0x4000, 0xF000⟩, ⟨"5XY0", 0x5000, 0xF00F⟩, ⟨"6XNN", 0x6000, 0xF000⟩,
   ⟨"7XNN", 0x7000, 0xF000⟩] ++
  [⟨"8XY0", 0x8000, 0xF00F⟩, ⟨"8XY1", 0x8001, 0xF00F⟩, ⟨"8XY2", 0x8002, 0xF00F⟩, ⟨"8XY3", 0x8003, 0xF00F⟩,
   ⟨"8XY4", 0x8004, 0xF00F⟩, ⟨"8XY5", 0x8005, 0xF00F⟩, ⟨"8XY6", 0x8006, 0xF00F⟩, ⟨"8XY7", 0x8007, 0xF00F⟩,
   ⟨"8XYE", 0x800E, 0xF00F⟩, ⟨"9XY0", 0x9000, 0xF00F⟩] ++
  [⟨"ANNN", 0xA000, 0xF000⟩, ⟨"BNNN", 0xB000, 0xF000⟩, ⟨"CXNN", 0xC000, 0xF000⟩, ⟨"DXYN", 0xD000, 0xF000⟩,
   ⟨"EX9E", 0xE09E, 0xF0FF⟩, ⟨"EXA1", 0xE0A1, 0xF0FF⟩] ++
  [⟨"FX07", 0xF007, 0xF0FF⟩, ⟨"FX0A", 0xF00A, 0xF0FF⟩, ⟨"FX15", 0xF015, 0xF0FF⟩, ⟨"FX18", 0xF018, 0xF0FF⟩,
   ⟨"FX1E", 0xF01E, 0xF0FF⟩, ⟨"FX29", 0xF029, 0xF0FF⟩, ⟨"FX33", 0xF033, 0xF0FF⟩, ⟨"FX55", 0xF055, 0xF0FF⟩,
   ⟨"FX65", 0xF065, 0xF0FF⟩]

/-- The row each instruction stands for, by the table's mnemonic; `NOP.UNK` is the default row (R101, R103). -/
def Instr.mnemonic : Instr → String
  | .cls => "00E0"
  | .ret => "00EE"
  | .jp _ => "1NNN"
  | .call _ => "2NNN"
  | .seImm _ _ => "3XNN"
  | .sneImm _ _ => "4XNN"
  | .seReg _ _ => "5XY0"
  | .ldImm _ _ => "6XNN"
  | .addImm _ _ => "7XNN"
  | .ldReg _ _ => "8XY0"
  | .orReg _ _ => "8XY1"
  | .andReg _ _ => "8XY2"
  | .xorReg _ _ => "8XY3"
  | .addReg _ _ => "8XY4"
  | .subReg _ _ => "8XY5"
  | .shr _ _ => "8XY6"
  | .subnReg _ _ => "8XY7"
  | .shl _ _ => "8XYE"
  | .sneReg _ _ => "9XY0"
  | .ldIndex _ => "ANNN"
  | .jpV0 _ => "BNNN"
  | .rnd _ _ => "CXNN"
  | .drw _ _ _ => "DXYN"
  | .skp _ => "EX9E"
  | .sknp _ => "EXA1"
  | .ldFromDelay _ => "FX07"
  | .waitKey _ => "FX0A"
  | .ldDelay _ => "FX15"
  | .ldSound _ => "FX18"
  | .addIndex _ => "FX1E"
  | .ldGlyph _ => "FX29"
  | .bcd _ => "FX33"
  | .storeRegs _ => "FX55"
  | .loadRegs _ => "FX65"
  | .unknown _ => "NOP.UNK"

end Sys2Proof
end

