-- ==== Sys2Proof/Machine/Font.lean ====
section
/-! DEFINITION. The open parameter FONT as a type, and its default value, which "a model should use unless told otherwise"
(00_scope.md R5, 70_reset_and_hazards.md R273, the spec's decision D14; log 5). No rule depends on the bytes. -/

namespace Sys2Proof.Machine

/-- A value of FONT: `FONT[0..79]`, sixteen glyphs of five bytes, glyph `g` at `80 + 5*g` (R5, R61, R273). -/
abbrev FontTable := Vector Byte 80

/-- The bytes of the default FONT (R273; PRESUMED, log 5). -/
def fontBytes : List Byte :=
  [0xF0, 0x90, 0x90, 0x90, 0xF0,  0x20, 0x60, 0x20, 0x20, 0x70,
   0xF0, 0x10, 0xF0, 0x80, 0xF0,  0xF0, 0x10, 0xF0, 0x10, 0xF0,
   0x90, 0x90, 0xF0, 0x10, 0x10,  0xF0, 0x80, 0xF0, 0x10, 0xF0,
   0xF0, 0x80, 0xF0, 0x90, 0xF0,  0xF0, 0x10, 0x20, 0x40, 0x40] ++
  [0xF0, 0x90, 0xF0, 0x90, 0xF0,  0xF0, 0x90, 0xF0, 0x10, 0xF0,
   0xF0, 0x90, 0xF0, 0x90, 0x90,  0xE0, 0x90, 0xE0, 0x90, 0xE0,
   0xF0, 0x80, 0x80, 0x80, 0xF0,  0xE0, 0x90, 0x90, 0x90, 0xE0,
   0xF0, 0x80, 0xF0, 0x80, 0xF0,  0xF0, 0x80, 0xF0, 0x80, 0x80]

/-- The default FONT, which the machine right after reset has (R273; PRESUMED, log 5). -/
def fontTable : FontTable := Vector.mk fontBytes.toArray rfl

end Sys2Proof.Machine
end

