-- ==== Sys2Proof/Machine/State.lean ====
section
/-! DEFINITION. The Machine State as plain data (10_state.md R20 to R37), the outputs of an event, the model's own fields
for the host's inputs and schedule, the reasons a step can stop, and the state after reset. -/

namespace Sys2Proof.Machine

/-- Memory: the bytes that differ from their reset contents, sorted by address, no repeats (R30, R60; log 25). -/
abbrev Memory := List Host.Cell

/-- The framebuffer: 32 rows of 64 one-bit cells, `fb[y][x]` (R28). -/
abbrev FrameBuffer := Vector (Vector Bool 64) 32

/-- The diagnostic output of a step (R34, R242). -/
inductive Diag where
  /-- Code 0. -/
  | none
  /-- Code 1: a 2NNN found the stack full (R143). -/
  | stackOverflow
  /-- Code 2: a 00EE found the stack empty (R141). -/
  | stackUnderflow
  deriving DecidableEq, Repr

/-- The output of a load (R34, R274, R275). -/
inductive LoadStatus where
  /-- Bit 0. -/
  | accepted
  /-- Bit 1: more than 3584 bytes (R275). -/
  | programTooLarge
  deriving DecidableEq, Repr

/-- An event the host presents (R33): one atomic transaction. -/
inductive HostEvent where
  /-- Perform the reset (R270). -/
  | reset
  /-- Load a program image (R274). -/
  | load (bytes : List Byte)
  /-- Perform one step with this keypad snapshot and this random byte (R120). -/
  | step (keys : Keys) (rnd : Byte)
  /-- Perform one timer tick (R250). -/
  | tick
  deriving DecidableEq, Repr

/-- The machine. The first eleven fields are the spec's whole list of state (R31); then two outputs; then the model's
own fields for inputs and schedule. -/
structure State where
  /-- `memory[0..4095]` (R30). -/
  mem : Memory
  /-- `V[0..15]`; VF, the flag register, is `V[15]` (R20, R21). -/
  v : Vector Byte 16
  /-- `I` (R22). -/
  index : Word
  /-- `pc` (R23). -/
  pc : Word
  /-- `stack[0..15]` (R24). -/
  stack : Vector Word 16
  /-- `sp`: how many return addresses are held, 0..16 (R25). -/
  sp : Fin 17
  /-- `delay_timer` (R26). -/
  delayTimer : Byte
  /-- `sound_timer` (R27). -/
  soundTimer : Byte
  /-- `fb` (R28). -/
  fb : FrameBuffer
  /-- `awaiting_key` (R29): a status output, it gates nothing (R126). -/
  awaitingKey : Bool
  /-- `key_target` (R29). -/
  keyTarget : Reg
  /-- OUTPUT `diag` as the last step left it (R34, R242; log 15). -/
  diag : Diag
  /-- OUTPUT `load_status` as the last load left it (R34; log 19). -/
  loadStatus : LoadStatus
  /-- INPUT: the keypad snapshot of the step in progress (R33; log 4). -/
  keys : Keys
  /-- INPUT: the random byte of the step in progress (R33; log 4). -/
  rnd : Byte
  /-- MODEL: the host's events still to come, oldest first (R11, R33; log 3). -/
  agenda : List HostEvent
  /-- MODEL: how many events have been performed; the free inputs are applied to it (log 1, log 2). -/
  clock : Nat
  /-- MODEL: a step event has happened since reset, so no load may follow (R276; log 18). -/
  started : Bool
  /-- MODEL: a load has happened since reset, so no second one may follow, and steps and ticks may (R276; log 18). -/
  loaded : Bool
  /-- PARAMETER: the open parameter FONT of this machine (R5, R32). No event changes it (log 5). -/
  font : FontTable
  deriving DecidableEq, Repr

/-- Why the machine stops with a fault: never. "No panics/aborts originate from instruction execution" (R123, R240), and
no address fails (R62), so the type has no constructor (log 24). -/
inductive Fault where
  deriving DecidableEq, Repr

/-- Why the model gives an event no meaning. No instruction's meaning answers with one of these. -/
inductive Refusal where
  /-- An arm of exec without a meaning (none is left): raised by Machine/Dispatch.lean alone. Safe. -/
  | notModelled (mnemonic : String)
  /-- A step event after a refused load: "A model gives such a launch no meaning (it refuses it)" (R275, U14; log 18).
  Raised by the step function, before any instruction is fetched. Safe. -/
  | steppedAfterRefusedLoad
  /-- A step event before any load since reset: the boot order is reset, one accepted load, then steps and ticks (R276,
  D22; log 18). Raised by the step function, before any instruction is fetched. Safe. -/
  | steppedBeforeLoad
  /-- A tick event before the load, or after a refused one (R275, R276; log 18). Raised by the step function on the tick
  event. Safe. -/
  | tickedOutOfOrder
  /-- A second load since reset, before the first step: "exactly one accepted `load(bytes)`", and a launch whose load was
  refused has no meaning (R275, R276, D22; log 18). Raised by the step function on the load event. Safe. -/
  | loadedTwice
  /-- A load event after the first step: "No `load` happens after the first `step`" (R276, D22; log 18). Raised by the
  step function on the load event. Safe. -/
  | loadAfterFirstStep
  deriving DecidableEq, Repr

/-- The result of an instruction or an event. -/
abbrev Result := Host.Outcome State Fault Refusal

/-- The state right after reset of the machine whose FONT is `font` (R5, R36, R270, R271): memory at its reset contents,
which list nothing (log 25); every register zero but `pc`, which is 512. The model's own fields have the values of
log 1, 3, 4, 15, 18 and 19. -/
def State.resetWith (font : FontTable) : State where
  mem := []
  v := Vector.replicate 16 0#8
  index := 0#16
  pc := 512#16
  stack := Vector.replicate 16 0#16
  sp := 0
  delayTimer := 0#8
  soundTimer := 0#8
  fb := Vector.replicate 32 (Vector.replicate 64 false)
  awaitingKey := false
  keyTarget := 0#4
  diag := .none
  loadStatus := .accepted
  keys := 0#16
  rnd := 0#8
  agenda := []
  clock := 0
  started := false
  loaded := false
  font := font

/-- The machine right after reset, with the default FONT (R36, R273; log 5). -/
def State.reset : State := State.resetWith fontTable

end Sys2Proof.Machine
end

