-- ==== Sys2Proof/Machine/Ops.lean ====
section
/-! DEFINITION. The named operations over memory, registers, the return stack and `pc` (10_state.md, 20_memory.md,
40_step_cycle.md). The hardware takes no exception (60_exceptions.md R240): the nearest thing is `State.signal`, the
one shared operation that raises the diagnostic output (00_scope.md R9). -/

namespace Sys2Proof.Machine

/-! ### Memory -/

/-- What an address reads as until something is stored there: its reset contents, FONT at 80..159 and 0 elsewhere (R36,
R61, R271; log 25). -/
def Memory.initial (font : FontTable) (a : Nat) : Byte :=
  if h : 80 ≤ a ∧ a < 160 then font[a - 80] else 0

/-- The byte at an address below 4096. -/
def Memory.read (font : FontTable) : Memory → Nat → Byte
  | [], a => Memory.initial font a
  | c :: m, a => if c.1 = a then c.2 else Memory.read font m a

/-- Put a cell before the first one of a greater address. -/
def Memory.insert (a : Nat) (b : Byte) : Memory → Memory
  | [] => [(a, b)]
  | c :: m => if a < c.1 then (a, b) :: c :: m else c :: Memory.insert a b m

/-- Store a byte, keeping the canonical form: a byte equal to the reset contents is not listed. -/
def Memory.write (font : FontTable) (m : Memory) (a : Nat) (b : Byte) : Memory :=
  let rest := m.filter (fun c => c.1 != a)
  if b = Memory.initial font a then rest else Memory.insert a b rest

/-- The canonical form: addresses strictly rising and below 4096, no cell equal to the reset contents. -/
abbrev Memory.wf (font : FontTable) (m : Memory) : Prop :=
  m.Pairwise (fun c d => c.1 < d.1) ∧ ∀ c ∈ m, c.1 < 4096 ∧ c.2 ≠ Memory.initial font c.1

/-- `MemRead(addr, 1)`: the address is reduced modulo 4096 and never fails (R62, R63; log 20). -/
def State.readByte (s : State) (addr : Nat) : Byte := s.mem.read s.font (addr % 4096)

/-- `MemWrite(addr, 1, v)`: the address is reduced modulo 4096 and never fails (R62, R64; log 20). -/
def State.writeByte (s : State) (addr : Nat) (b : Byte) : State :=
  { s with mem := s.mem.write s.font (addr % 4096) b }

/-- Store bytes at `addr`, `addr + 1`, ... in that order (R67; log 27). -/
def State.storeBytes (s : State) (addr : Nat) : List Byte → State
  | [] => s
  | b :: bs => (s.writeByte addr b).storeBytes (addr + 1) bs

/-- The bytes at `addr`, `addr + 1`, ..., `addr + len - 1` (R67). -/
def State.readBytes (s : State) (addr len : Nat) : List Byte :=
  (List.range len).map (fun k => s.readByte (addr + k))

/-- The word at `pc`: two one-byte reads, most significant first, whatever the parity of `pc` (R65, R66, R121;
log 6, log 7). -/
def State.fetchWord (s : State) : Word :=
  wordOfBytes (s.readByte s.pc.toNat) (s.readByte (s.pc.toNat + 1))

/-! ### Registers -/

/-- Read `V[r]` (R7, R20). -/
def State.getV (s : State) (r : Reg) : Byte := s.v[r.toNat]'(r.isLt)

/-- `V[r] <- b` (R7, R20). -/
def State.setV (s : State) (r : Reg) (b : Byte) : State := { s with v := s.v.set r.toNat b r.isLt }

/-- The register number of VF (R7, R21). -/
def vF : Reg := 0xF

/-- `V[k], V[k+1], ... <- bytes`, one register after the other (R186). -/
def State.loadV (s : State) (k : Nat) : List Byte → State
  | [] => s
  | b :: bs => (s.setV (BitVec.ofNat 4 k) b).loadV (k + 1) bs

/-! ### Control -/

/-- `pc <- target` (R140: no target is checked, aligned or faulted). -/
def State.setPc (s : State) (target : Word) : State := { s with pc := target }

/-- A skip: `pc <- (pc + 2) mod 65536` when the condition holds (R140; log 7). -/
def State.skipIf (s : State) (cond : Bool) : State := if cond then s.setPc (s.pc + 2) else s

/-- `signal d`: set the diagnostic output of the step, and nothing else (R9, R242). -/
def State.signal (s : State) (d : Diag) : State := { s with diag := d }

/-- `stack[k]` (R24). -/
def State.stackAt (s : State) (k : Fin 16) : Word := s.stack[k.val]

/-- `push(a)`: the new state, or none when the stack already holds 16 entries (R25; log 17). -/
def State.push (s : State) (a : Word) : Option State :=
  if h : s.sp.val < 16 then
    some { s with stack := s.stack.set s.sp.val a h, sp := ⟨s.sp.val + 1, Nat.succ_lt_succ h⟩ }
  else none

/-- `pop()`: the popped address and the new state, or none when the stack is empty; the entry keeps its value
(R25; log 17). -/
def State.pop (s : State) : Option (Word × State) :=
  if h : 0 < s.sp.val then
    have hk : s.sp.val - 1 < 16 := by have := s.sp.isLt; omega
    some (s.stackAt ⟨s.sp.val - 1, hk⟩, { s with sp := ⟨s.sp.val - 1, Nat.lt_succ_of_lt hk⟩ })
  else none

end Sys2Proof.Machine
end

