-- ==== Sys2Proof/Machine/Flags.lean ====
section
/-! DEFINITION. The flag computations: what 8XY4, 8XY5, 8XY6, 8XY7, 8XYE and DXYN write to VF (10_state.md R21, 42_alu.md
R160, R173). A flag is 0 or 1. -/

namespace Sys2Proof.Machine

/-- A condition as the byte VF gets (R21). -/
def flagByte (c : Bool) : Byte := if c then 1#8 else 0#8

/-- Carry: `1 if sum > 255 else 0` of the exact sum (R167). -/
def carryFlag (a b : Byte) : Byte := flagByte (decide (a.toNat + b.toNat > 255))

/-- No borrow: `1 if a >= b else 0` (R168, R170). -/
def noBorrowFlag (a b : Byte) : Byte := flagByte (decide (a.toNat ≥ b.toNat))

/-- The bit a right shift moves out, `a AND 1` (R169). -/
def lowBitFlag (a : Byte) : Byte := a &&& 1#8

/-- The bit a left shift moves out, `(a AND 0x80) >> 7` (R171). -/
def highBitFlag (a : Byte) : Byte := (a &&& 0x80#8) >>> 7

end Sys2Proof.Machine
end

