-- ==== Sys2Proof/Machine/Operands.lean ====
section
/-! DEFINITION. The operand forms: the one addressing mode (43_index_memory.md R180), zero extension of immediates (R93),
glyph addresses (R183), decimal digits (R184), draw coordinates (R202) and key selection (R218, R221). -/

namespace Sys2Proof.Machine

/-- `ea = (I + k) mod 4096`, from the full 16-bit `I` (R62, R180). -/
def State.effectiveAddr (s : State) (k : Nat) : Nat := (s.index.toNat + k) % 4096

/-- `zext_16(nnn)` (R6, R93). -/
def zextAddr (nnn : Addr12) : Word := nnn.setWidth 16

/-- `zext_16` of a register value (R6). -/
def zextByte (b : Byte) : Word := b.setWidth 16

/-- `80 + zext_16(V[x]) * 5`, the whole 8-bit value, not masked to a digit (R183; the spec's decision D23, log 21). -/
def glyphAddr (b : Byte) : Word := 80#16 + zextByte b * 5#16

/-- The three decimal digits, hundreds first, one byte each (R173, R184). -/
def decimalDigits (b : Byte) : List Byte := [b / 100#8, b / 10#8 % 10#8, b % 10#8]

/-- `V[0], ..., V[x]`, ascending (R185). -/
def State.regsUpTo (s : State) (x : Reg) : List Byte :=
  (List.range (x.toNat + 1)).map (fun k => s.getV (BitVec.ofNat 4 k))

/-- The starting column of a sprite, `V[x] mod 64` (R202). -/
def startColumn (b : Byte) : Nat := b.toNat % 64

/-- The starting row of a sprite, `V[y] mod 32` (R202). -/
def startRow (b : Byte) : Nat := b.toNat % 32

/-- The key a register value selects, `V[x] AND 0x0F` (R218; the spec's decision D8, log 11). -/
def keyIndex (b : Byte) : Nat := (b &&& 0x0F#8).toNat

/-- `keys[k]` of this step's snapshot (R7, R33). -/
def State.keyPressed (s : State) (k : Nat) : Bool := s.keys.getLsbD k

/-- "the lowest-indexed pressed key" of a snapshot, none when no key is pressed (R221). -/
def lowestKey (keys : Keys) : Option Nat := (List.range 16).find? (fun k => keys.getLsbD k)

end Sys2Proof.Machine
end

