-- ==== Sys2Proof/Machine/Alu.lean ====
section
/-! DEFINITION. The register file and the 8-bit ALU (42_alu.md R160 to R173). Flag-writing instructions execute "flag
assignment; result assignment" in that order, each reading the registers as the one before left them (R8, R160; the
spec's decision D5, log 8). -/

namespace Sys2Proof.Machine

/-- 6XNN (R161). -/
def execLdImm (x : Reg) (nn : Byte) (s : State) : Result := .next (s.setV x nn)

/-- 7XNN (R162): modulo 256, no flag. -/
def execAddImm (x : Reg) (nn : Byte) (s : State) : Result := .next (s.setV x (s.getV x + nn))

/-- 8XY0 (R163). -/
def execLdReg (x y : Reg) (s : State) : Result := .next (s.setV x (s.getV y))

/-- 8XY1 (R164): VF is not zeroed. -/
def execOrReg (x y : Reg) (s : State) : Result := .next (s.setV x (s.getV x ||| s.getV y))

/-- 8XY2 (R165): VF is not zeroed. -/
def execAndReg (x y : Reg) (s : State) : Result := .next (s.setV x (s.getV x &&& s.getV y))

/-- 8XY3 (R166): VF is not zeroed. -/
def execXorReg (x y : Reg) (s : State) : Result := .next (s.setV x (s.getV x ^^^ s.getV y))

/-- 8XY4 (R167): the sum is computed once, before VF is written. -/
def execAddReg (x y : Reg) (s : State) : Result :=
  let sum := s.getV x + s.getV y
  let s1 := s.setV vF (carryFlag (s.getV x) (s.getV y))
  .next (s1.setV x sum)

/-- 8XY5 (R168): the difference reads `V[x]` and `V[y]` after VF is written. -/
def execSubReg (x y : Reg) (s : State) : Result :=
  let s1 := s.setV vF (noBorrowFlag (s.getV x) (s.getV y))
  .next (s1.setV x (s1.getV x - s1.getV y))

/-- 8XY6 (R169): shifts `V[x]`; `y` is ignored (log 33). -/
def execShr (x _y : Reg) (s : State) : Result :=
  let s1 := s.setV vF (lowBitFlag (s.getV x))
  .next (s1.setV x (s1.getV x >>> 1))

/-- 8XY7 (R170): the difference reads `V[x]` and `V[y]` after VF is written. -/
def execSubnReg (x y : Reg) (s : State) : Result :=
  let s1 := s.setV vF (noBorrowFlag (s.getV y) (s.getV x))
  .next (s1.setV x (s1.getV y - s1.getV x))

/-- 8XYE (R171): shifts `V[x]`; `y` is ignored (log 33). -/
def execShl (x _y : Reg) (s : State) : Result :=
  let s1 := s.setV vF (highBitFlag (s.getV x))
  .next (s1.setV x (s1.getV x <<< 1))

/-- CXNN (R172): the step's random byte, a free input (log 2). -/
def execRnd (x : Reg) (nn : Byte) (s : State) : Result := .next (s.setV x (s.rnd &&& nn))

end Sys2Proof.Machine
end

