-- ==== Sys2Proof/Machine/Control.lean ====
section
/-! DEFINITION. Control transfer (41_control_flow.md R140 to R148) and the unknown opcode (30_encoding.md R98). Every
meaning runs after the step has set `pc <- pc0 + 2` (R10, R120). -/

namespace Sys2Proof.Machine

/-- 00EE (R141): on an empty stack a no-op that signals StackUnderflow (log 14), else `pc <- pop()`. -/
def execRet (s : State) : Result :=
  .next (match s.pop with
    | none => s.signal .stackUnderflow
    | some (a, s') => s'.setPc a)

/-- 1NNN (R142). -/
def execJp (nnn : Addr12) (s : State) : Result := .next (s.setPc (zextAddr nnn))

/-- 2NNN (R143): on a full stack a no-op that signals StackOverflow (log 14), else `push(pc); pc <- nnn`. -/
def execCall (nnn : Addr12) (s : State) : Result :=
  .next (match s.push s.pc with
    | none => s.signal .stackOverflow
    | some s' => s'.setPc (zextAddr nnn))

/-- 3XNN (R144). -/
def execSeImm (x : Reg) (nn : Byte) (s : State) : Result := .next (s.skipIf (s.getV x == nn))

/-- 4XNN (R145). -/
def execSneImm (x : Reg) (nn : Byte) (s : State) : Result := .next (s.skipIf (s.getV x != nn))

/-- 5XY0 (R146). -/
def execSeReg (x y : Reg) (s : State) : Result := .next (s.skipIf (s.getV x == s.getV y))

/-- 9XY0 (R147). -/
def execSneReg (x y : Reg) (s : State) : Result := .next (s.skipIf (s.getV x != s.getV y))

/-- BNNN (R148): always V0; the sum is not reduced (log 21). -/
def execJpV0 (nnn : Addr12) (s : State) : Result := .next (s.setPc (zextAddr nnn + zextByte (s.getV 0)))

/-- An unknown opcode (R98): nothing beyond the step's own advance of `pc`. -/
def execUnknown (_w : Word) (s : State) : Result := .next s

end Sys2Proof.Machine
end

