-- ==== Sys2Proof/Machine/Display.lean ====
section
/-! DEFINITION. The Display Unit (44_display.md R200 to R204). The draw works on the framebuffer and the collision flag;
DXYN gives the flag to VF. -/

namespace Sys2Proof.Machine

/-- The framebuffer and VF while a sprite is drawn (R201). -/
abbrev Canvas := FrameBuffer × Bool

/-- A cell of the framebuffer, column first; there is none outside 64 by 32 (R28). -/
def FrameBuffer.cell (fb : FrameBuffer) (x y : Nat) : Bool :=
  if h : x < 64 ∧ y < 32 then (fb[y]'h.2)[x]'h.1 else false

/-- All cells off (R200). -/
def FrameBuffer.blank : FrameBuffer := Vector.replicate 32 (Vector.replicate 64 false)

/-- A set sprite bit at `(tx, ty)`: off screen nothing happens, else the cell is inverted, and a cell that was on sets
the collision flag (R201). -/
def plotPixel (c : Canvas) (tx ty : Nat) : Canvas :=
  if h : tx ≤ 63 ∧ ty ≤ 31 then
    have hx : tx < 64 := Nat.lt_succ_of_le h.1
    have hy : ty < 32 := Nat.lt_succ_of_le h.2
    let old := (c.1[ty])[tx]
    (c.1.set ty ((c.1[ty]).set tx (!old)), c.2 || old)
  else c

/-- One row of a sprite, most significant bit leftmost: bit `7 - k` goes to column `x0 + k` (R201). -/
def plotRow (c : Canvas) (x0 ty : Nat) (byte : Byte) : Canvas :=
  (List.range 8).foldl (fun c k => if byte.getLsbD (7 - k) then plotPixel c (x0 + k) ty else c) c

/-- Rows `ty`, `ty + 1`, ... of a sprite (R201). -/
def plotRows (c : Canvas) (x0 ty : Nat) : List Byte → Canvas
  | [] => c
  | b :: bs => plotRows (plotRow c x0 ty b) x0 (ty + 1) bs

/-- `draw(x0, y0, height, sprite)`, the height being the sprite's length; the flag starts at 0 (R201). -/
def drawSprite (fb : FrameBuffer) (x0 y0 : Nat) (sprite : List Byte) : Canvas := plotRows (fb, false) x0 y0 sprite

/-- 00E0 (R200): VF is not written. -/
def execCls (s : State) : Result := .next { s with fb := FrameBuffer.blank }

/-- DXYN (R202): the coordinates and the sprite bytes are read before VF is written (log 9). -/
def execDrw (x y : Reg) (n : BitVec 4) (s : State) : Result :=
  let c := drawSprite s.fb (startColumn (s.getV x)) (startRow (s.getV y)) (s.readBytes s.index.toNat n.toNat)
  .next ({ s with fb := c.1 }.setV vF (flagByte c.2))

end Sys2Proof.Machine
end

