-- ==== Sys2Proof/Machine/Index.lean ====
section
/-! DEFINITION. The index register and memory transfer (43_index_memory.md R180 to R186). No memory instruction changes
`I`. -/

namespace Sys2Proof.Machine

/-- ANNN (R181). -/
def execLdIndex (nnn : Addr12) (s : State) : Result := .next { s with index := zextAddr nnn }

/-- FX1E (R182): modulo 65536, no flag. -/
def execAddIndex (x : Reg) (s : State) : Result := .next { s with index := s.index + zextByte (s.getV x) }

/-- FX29 (R183). -/
def execLdGlyph (x : Reg) (s : State) : Result := .next { s with index := glyphAddr (s.getV x) }

/-- FX33 (R184). -/
def execBcd (x : Reg) (s : State) : Result := .next (s.storeBytes s.index.toNat (decimalDigits (s.getV x)))

/-- FX55 (R185). -/
def execStoreRegs (x : Reg) (s : State) : Result := .next (s.storeBytes s.index.toNat (s.regsUpTo x))

/-- FX65 (R186). -/
def execLoadRegs (x : Reg) (s : State) : Result := .next (s.loadV 0 (s.readBytes s.index.toNat (x.toNat + 1)))

end Sys2Proof.Machine
end

