-- ==== Sys2Proof/Machine/Keypad.lean ====
section
/-! DEFINITION. Timer access and keypad instructions (45_timer_keypad.md R215 to R222). -/

namespace Sys2Proof.Machine

/-- FX07 (R215; the spec's decision D7, log 10). -/
def execLdFromDelay (x : Reg) (s : State) : Result := .next (s.setV x s.delayTimer)

/-- FX15 (R216; the spec's decision D7, log 10). -/
def execLdDelay (x : Reg) (s : State) : Result := .next { s with delayTimer := s.getV x }

/-- FX18 (R217; the spec's decision D7, log 10). -/
def execLdSound (x : Reg) (s : State) : Result := .next { s with soundTimer := s.getV x }

/-- EX9E (R219). -/
def execSkp (x : Reg) (s : State) : Result := .next (s.skipIf (s.keyPressed (keyIndex (s.getV x))))

/-- EXA1 (R220). -/
def execSknp (x : Reg) (s : State) : Result := .next (s.skipIf (!s.keyPressed (keyIndex (s.getV x))))

/-- FX0A (R221; the spec's decision D9, log 12): with a key pressed, its number goes to `V[x]`; with none, `pc` goes back
onto this instruction (`pc0`, two below the advanced `pc`) and the wait is recorded. -/
def execWaitKey (x : Reg) (s : State) : Result :=
  .next (match lowestKey s.keys with
    | some k => { s.setV x (BitVec.ofNat 8 k) with awaitingKey := false }
    | none => { s.setPc (s.pc - 2) with awaitingKey := true, keyTarget := x })

end Sys2Proof.Machine
end

