-- ==== Sys2Proof/Config.lean ====
section
/-! DEFINITION. What the spec leaves open and the model does not fix: the inputs of an event for which the host's agenda
holds none (93_implementation_defined.md U5, U11; 70_reset_and_hazards.md R276; log 1, log 2, log 23). None has a body, so
a proof about them holds whatever they are. -/

namespace Sys2Proof

/-- The keypad snapshot of a step the agenda does not list, as a function of the count of events before it: "each
step's `keys` is a free 16-bit input" (U11; log 1). -/
opaque Config.freeKeys : Nat → Keys

/-- The random byte of a step the agenda does not list: "any of 0..255, constrained by nothing" (R172, D15; log 2). -/
opaque Config.freeRnd : Nat → Byte

/-- The program image of a load the agenda does not list: the program is the host's (R274, R276; log 23). -/
opaque Config.freeImage : Nat → List Byte

end Sys2Proof
end

