-- ==== Sys2Proof/Machine/Events.lean ====
section
/-! DEFINITION. What the Timer Clock and the host do to the state (60_exceptions.md R250; 70_reset_and_hazards.md R270 to
R276), how the next event is chosen, and the Step Driver's frame (40_step_cycle.md R125). -/

namespace Sys2Proof.Machine

/-- One down-count that stops at 0 (R250). -/
def countDown (t : Byte) : Byte := if t = 0#8 then t else t - 1#8

/-- The `tick` event (R250). -/
def State.tick (s : State) : State :=
  { s with delayTimer := countDown s.delayTimer, soundTimer := countDown s.soundTimer }

/-- The `reset` event: the whole Machine State takes its reset values, the machine's own FONT among them (R270 to R272);
the host's schedule goes on. -/
def State.performReset (s : State) : State := { State.resetWith s.font with agenda := s.agenda, clock := s.clock }

/-- The `load(bytes)` event: an image of at most 3584 bytes is copied to 512 upwards (R274); a larger one is refused and
nothing is written (R275). Either way it is the one load of this run (R276). -/
def State.load (s : State) (bytes : List Byte) : State :=
  if bytes.length ≤ 3584 then { s.storeBytes 512 bytes with loadStatus := .accepted, loaded := true }
  else { s with loadStatus := .programTooLarge, loaded := true }

/-- The start of a step (R120): the inputs are sampled, `pc` advances by 2 modulo 65536, `diag <- None`. The word has
been fetched from the state before this (R121; log 7). -/
def State.beginStep (s : State) (keys : Keys) (rnd : Byte) : State :=
  { s with keys := keys, rnd := rnd, pc := s.pc + 2, diag := .none, started := true }

/-- Why an event has no meaning here, if it has none. The boot order is fixed: "(1) `reset`; (2) exactly one accepted
`load(bytes)`; (3) then any number of `step` and `tick` events"; a reset begins it anew at any time (R272, R275, R276, the
spec's decision D22; log 18). -/
def State.bootBreach (s : State) : HostEvent → Option Refusal
  | .reset => none
  | .load _ => if s.started then some .loadAfterFirstStep else if s.loaded then some .loadedTwice else none
  | .step _ _ =>
    if s.loaded then
      match s.loadStatus with
      | .accepted => none
      | .programTooLarge => some .steppedAfterRefusedLoad
    else some .steppedBeforeLoad
  | .tick => if s.loaded = true ∧ s.loadStatus = .accepted then none else some .tickedOutOfOrder

/-- The event that comes when the agenda is empty, the next of the boot order: before the load, the load of a free image of
a size that is accepted; after it, a step whose inputs are free (R33, R276, U5, U11; log 1, log 2, log 3, log 23). -/
def State.unlistedEvent (s : State) : HostEvent :=
  if s.loaded then .step (Config.freeKeys s.clock) (Config.freeRnd s.clock)
  else .load ((Config.freeImage s.clock).take 3584)

/-- The event that comes next and the state with it taken off the agenda (R33; log 3). -/
def State.takeEvent (s : State) : HostEvent × State :=
  match s.agenda with
  | [] => (s.unlistedEvent, { s with clock := s.clock + 1 })
  | e :: rest => (e, { s with agenda := rest, clock := s.clock + 1 })

/-- Whether an event is a step. -/
def HostEvent.isStep : HostEvent → Bool
  | .step _ _ => true
  | .reset | .load _ | .tick => false

/-- One frame of the Step Driver: a step event for each pair of inputs, CYCLES_PER_FRAME of them, then exactly one tick
(R125; log 29). -/
def driverFrame (inputs : List (Keys × Byte)) : List HostEvent :=
  inputs.map (fun i => .step i.1 i.2) ++ [.tick]

/-- `s` with the instruction whose bits are `w` where the next step fetches it, and with that step next: events before
the agenda's first step are dropped, and an accepted load counts as done (R65, R120, R276; log 23). -/
def State.placeInstruction (s : State) (nbits w : Nat) : State :=
  let word := BitVec.ofNat 16 (w % 2 ^ nbits)
  let s' := s.storeBytes s.pc.toNat [highByte word, lowByte word]
  { s' with loadStatus := .accepted, loaded := true, agenda := s.agenda.dropWhile (fun e => !e.isStep) }

end Sys2Proof.Machine
end

