-- ==== Sys2Proof/Machine/Outputs.lean ====
section
/-! DEFINITION. The outputs the host reads between events (10_state.md R34, 60_exceptions.md R242, R249): functions of the
state alone. There is no display command (90_conflicts.md C8; log 26). -/

namespace Sys2Proof.Machine

/-- `fb_out[y][x]`, column first (R34). -/
def State.fbOut (s : State) (x y : Nat) : Bool := s.fb.cell x y

/-- The framebuffer as one sequence of 2048 cells, row-major: cell `(x, y)` is element `y * 64 + x` (R28). -/
def State.fbSequence (s : State) : List Bool := (s.fb.toList.map Vector.toList).flatten

/-- `sound_active = (sound_timer > 0)` (R34, R249). -/
def State.soundActive (s : State) : Bool := decide (s.soundTimer > 0#8)

/-- `delay_out` (R34; log 26). -/
def State.delayOut (s : State) : Byte := s.delayTimer

/-- `sound_out` (R34; log 26). -/
def State.soundOut (s : State) : Byte := s.soundTimer

/-- `awaiting_key_out` (R34). -/
def State.awaitingKeyOut (s : State) : Bool := s.awaitingKey

/-- The code of `diag` (R34, R242; the spec's decision D12, log 15). -/
def Diag.code : Diag → BitVec 2
  | .none => 0
  | .stackOverflow => 1
  | .stackUnderflow => 2

/-- The bit of `load_status` (R34). -/
def LoadStatus.bit : LoadStatus → Bool
  | .accepted => false
  | .programTooLarge => true

end Sys2Proof.Machine
end

