-- ==== Sys2Proof/Machine/Step.lean ====
section
/-! DEFINITION. One event of the machine (00_scope.md R11, 10_state.md R33): the Step Driver performs the event that comes
next. Everything it does is in the operations it calls. -/

namespace Sys2Proof.Machine

/-- Perform one host event, if the boot order allows it (R275, R276; log 18). A step fetches at `pc`, then advances,
decodes and executes (R120 to R122). -/
def perform (e : HostEvent) (s : State) : Host.Outcome State Fault Refusal :=
  match s.bootBreach e with
  | some r => .refused r
  | none =>
    match e with
    | .reset => .next s.performReset
    | .load bytes => .next (s.load bytes)
    | .tick => .next s.tick
    | .step keys rnd => exec (decode s.fetchWord) (s.beginStep keys rnd)

/-- One event: the next of the host's agenda, or the next of the boot order with free inputs when the agenda is empty. -/
def step (s : State) : Host.Outcome State Fault Refusal := perform s.takeEvent.1 s.takeEvent.2

/-- `s` with that instruction where step fetches next, and with that step next. -/
def State.withFetchWord (s : State) (nbits w : Nat) : State := s.placeInstruction nbits w

end Sys2Proof.Machine
end

