-- ==== Sys2Proof/Safety.lean ====
section
/-! DEFINITION. The terms the statements use: what an instruction may change (frames), which instructions a rule of the
spec names, the invariants, and when a program has finished. -/

namespace Sys2Proof.Machine

/-! ### Frames -/

/-- A piece of State other than the V registers. -/
inductive Part where
  | memory | index | pc | stack | sp | delayTimer | soundTimer | fb | awaitingKey | keyTarget
  | diag | loadStatus | keys | rnd | agenda | clock | started | loaded | font
  deriving DecidableEq, Repr

/-- From `s` to `t` nothing changed but V registers `r` with `mayReg r` and the parts listed. Memory is compared byte by
byte, through the model's own read. -/
def Frame (mayReg : Reg → Prop) (may : List Part) (s t : State) : Prop :=
  (∀ r, ¬ mayReg r → t.getV r = s.getV r) ∧
  (.memory ∉ may → ∀ a, t.readByte a = s.readByte a) ∧
  (.index ∉ may → t.index = s.index) ∧
  (.pc ∉ may → t.pc = s.pc) ∧
  (.stack ∉ may → t.stack = s.stack) ∧
  (.sp ∉ may → t.sp = s.sp) ∧
  (.delayTimer ∉ may → t.delayTimer = s.delayTimer) ∧
  (.soundTimer ∉ may → t.soundTimer = s.soundTimer) ∧
  (.fb ∉ may → t.fb = s.fb) ∧
  (.awaitingKey ∉ may → t.awaitingKey = s.awaitingKey) ∧
  (.keyTarget ∉ may → t.keyTarget = s.keyTarget) ∧
  (.diag ∉ may → t.diag = s.diag) ∧
  (.loadStatus ∉ may → t.loadStatus = s.loadStatus) ∧
  (.keys ∉ may → t.keys = s.keys) ∧
  (.rnd ∉ may → t.rnd = s.rnd) ∧
  (.agenda ∉ may → t.agenda = s.agenda) ∧
  (.clock ∉ may → t.clock = s.clock) ∧
  (.started ∉ may → t.started = s.started) ∧
  (.loaded ∉ may → t.loaded = s.loaded) ∧
  (.font ∉ may → t.font = s.font)

/-- No V register. -/
def noReg : Reg → Prop := fun _ => False

/-- The register named. -/
def onlyReg (x : Reg) : Reg → Prop := fun r => r = x

/-- The register named, and VF. -/
def regAndVF (x : Reg) : Reg → Prop := fun r => r = x ∨ r = vF

/-- `V[0..x]`. -/
def regsTo (x : Reg) : Reg → Prop := fun r => r.toNat ≤ x.toNat

/-! ### Encodings -/

/-- The instruction's word fits an opcode-table row, `w AND mask = bits`, and decodes back to the instruction (R95). -/
def EncodedBy (i : Instr) (bits mask : Word) : Prop := encode i &&& mask = bits ∧ decode (encode i) = i

/-! ### Which instructions a rule names -/

/-- The stores (R68). -/
def storesMemory : Instr → Prop
  | .bcd _ | .storeRegs _ => True
  | _ => False

/-- The instructions that touch the return stack (R24). -/
def usesStack : Instr → Prop
  | .call _ | .ret => True
  | _ => False

/-- The instructions that write the framebuffer (R28). -/
def writesFrameBuffer : Instr → Prop
  | .cls | .drw _ _ _ => True
  | _ => False

/-- The instructions that write `I` (R22). -/
def writesIndex : Instr → Prop
  | .ldIndex _ | .addIndex _ | .ldGlyph _ => True
  | _ => False

/-- The instructions that change `pc` after the step has advanced it (R23). -/
def changesPc : Instr → Prop
  | .jp _ | .call _ | .ret | .jpV0 _ | .waitKey _ => True
  | .seImm _ _ | .sneImm _ _ | .seReg _ _ | .sneReg _ _ | .skp _ | .sknp _ => True
  | _ => False

/-- The instructions that write VF as a side effect (R21). -/
def writesFlag : Instr → Prop
  | .addReg _ _ | .subReg _ _ | .subnReg _ _ | .shr _ _ | .shl _ _ | .drw _ _ _ => True
  | _ => False

/-- The V registers an instruction may write as its destination, VF as a flag left out (R20, R21). -/
def mayWriteReg : Instr → Reg → Prop
  | .ldImm x _, r | .addImm x _, r | .rnd x _, r => r = x
  | .ldReg x _, r | .orReg x _, r | .andReg x _, r | .xorReg x _, r => r = x
  | .addReg x _, r | .subReg x _, r | .shr x _, r | .subnReg x _, r | .shl x _, r => r = x
  | .ldFromDelay x, r | .waitKey x, r => r = x
  | .loadRegs x, r => r.toNat ≤ x.toNat
  | _, _ => False

/-- The instructions that read the keypad snapshot (R124). -/
def readsKeys : Instr → Prop
  | .skp _ | .sknp _ | .waitKey _ => True
  | _ => False

/-- The instruction that reads the random byte (R124). -/
def readsRnd : Instr → Prop
  | .rnd _ _ => True
  | _ => False

/-! ### The display, as one formula -/

/-- An `n`-row sprite read at `I` and started at `(x0, y0)` has a set bit on cell `(cx, cy)` (R201, R202). -/
def spriteCovers (s : State) (x0 y0 n cx cy : Nat) : Bool :=
  decide (x0 ≤ cx ∧ cx < x0 + 8 ∧ y0 ≤ cy ∧ cy < y0 + n) &&
    (s.readByte (s.index.toNat + (cy - y0))).getLsbD (7 - (cx - x0))

/-! ### Invariants and runs -/

/-- Memory is in its one canonical form. -/
def State.MemoryCanonical (s : State) : Prop := s.mem.wf s.font

/-- While a key is awaited, the next word is the FX0A that waits, with `key_target` as its register (R126, R221 d). -/
def State.AwaitsAtItsInstruction (s : State) : Prop :=
  s.awaitingKey = true → s.started = true ∧ decode s.fetchWord = .waitKey s.keyTarget

/-- A stack diagnostic is shown only while the stack is full or empty (R141, R143, R241). -/
def State.DiagMatchesStack (s : State) : Prop :=
  (s.diag = .stackOverflow → s.sp = 16) ∧ (s.diag = .stackUnderflow → s.sp = 0)

/-- The word at `pc` is a jump to `pc`, and `pc < 4096`: the spec's own definition of a finished program (R284, D25;
log 30). -/
def State.finished (s : State) : Prop :=
  ∃ nnn, decode s.fetchWord = .jp nnn ∧ zextAddr nnn = s.pc ∧ s.pc.toNat < 4096

/-- `pc` is even and in 0..4094: a property of well-formed programs, not of the hardware (R23). -/
def State.pcWellFormed (s : State) : Prop := s.pc.toNat % 2 = 0 ∧ s.pc.toNat ≤ 4094

/-- One accepted load has happened since reset, so steps and ticks have their meaning (R276). -/
def State.running (s : State) : Prop := s.loaded = true ∧ s.loadStatus = .accepted

/-- The boot order so far (R276): until its load the machine is in its reset state, whatever its FONT, and no step has
happened before an accepted load. -/
def State.BootOrder (s : State) : Prop :=
  (s.loaded = false → s = { State.resetWith s.font with agenda := s.agenda, clock := s.clock }) ∧
  (s.started = true → s.running)

/-- The next event is a step with these inputs, on a running machine (R120, R276): the step event at the front of the
agenda, or, when the agenda is empty, the step with the free inputs (log 1, log 2, log 3). -/
def State.stepsWith (s : State) (keys : Keys) (rnd : Byte) (rest : List HostEvent) : Prop :=
  s.running ∧
    (s.agenda = .step keys rnd :: rest ∨
      (s.agenda = [] ∧ keys = Config.freeKeys s.clock ∧ rnd = Config.freeRnd s.clock ∧ rest = []))

/-- The next event is the load of this run (R276): the load event at the front of the agenda, or, when the agenda is empty,
the load of the free image (log 3, log 23). -/
def State.loadsWith (s : State) (bytes : List Byte) (rest : List HostEvent) : Prop :=
  s.loaded = false ∧ s.started = false ∧
    (s.agenda = .load bytes :: rest ∨
      (s.agenda = [] ∧ bytes = (Config.freeImage s.clock).take 3584 ∧ rest = []))

/-- The machine after `n` events, stopping at the first that has no meaning: `Host.Core.run` of this machine, at its own
types (Laws/Step.lean shows them equal). -/
def runEvents : Nat → State → Result
  | 0, s => .next s
  | n + 1, s =>
    match step s with
    | .next t => runEvents n t
    | .fault r => .fault r
    | .refused r => .refused r

/-- What the start of a step and the taking of its event may change besides `pc` (R120). -/
def stepParts : List Part := [.diag, .keys, .rnd, .agenda, .clock, .started]

/-- The state in which the instruction of that step executes: the event taken, the inputs sampled, `pc` advanced. -/
def State.inStep (s : State) (keys : Keys) (rnd : Byte) (rest : List HostEvent) : State :=
  { s.beginStep keys rnd with agenda := rest, clock := s.clock + 1 }

end Sys2Proof.Machine
end

