-- ==== Sys2Proof/Certificates/Slice0/Obligations.lean ====
section
/-! DEFINITION. The statements for the provers. Each docstring names the rule or section of spec/ it formalises. A
statement that rests on one of the spec's own decisions (92_eei_decisions.md) says so and names the log entry. -/

open Sys2Proof Sys2Proof.Machine

/-! ### Encoding (30_encoding.md) -/

/-- No bit of an encoding is lost: decoding the word of any well-formed instruction gives the instruction back, every
operand at every value (R91, R95). -/
def Obligations.DecodeOfEncodeIsTheInstruction : Prop :=
  ∀ i : Instr, i.wellFormed = true → decode (encode i) = i

/-- Decoding is total, gives a well-formed instruction, and loses nothing of the word (R94, R95, R97). -/
def Obligations.EncodeOfDecodeIsTheWord : Prop :=
  ∀ w : Word, (decode w).wellFormed = true ∧ encode (decode w) = w

/-- A few words written out from the spec's encodings and examples decode as it says (T20, T21, T27, R95). -/
def Obligations.SampleWordsDecode : Prop :=
  decode 0xA2F0 = .ldIndex 0x2F0 ∧ decode 0xD7A5 = .drw 7 0xA 5 ∧ decode 0x8AB7 = .subnReg 0xA 0xB ∧
  decode 0x8AB6 = .shr 0xA 0xB ∧ decode 0x00EE = .ret ∧ decode 0xE59E = .skp 5 ∧ decode 0xF365 = .loadRegs 3 ∧
  decode 0x5121 = .unknown 0x5121 ∧ decode 0x0000 = .unknown 0x0000

/-- No word fits two of the 34 rows (R96). -/
def Obligations.OpcodeRowsAreDisjoint : Prop :=
  ∀ (w : Word) (r q : OpcodeRow), r ∈ opcodeRows → q ∈ opcodeRows → r.fits w = true → q.fits w = true → r = q

/-- The decoder gives a word the instruction of the row it fits; a word is the default row exactly when it fits none,
and those words are the ones R97 lists. Exact matching is the spec's decision D10 (log 13). -/
def Obligations.DecoderFollowsTheOpcodeTable : Prop :=
  ∀ w : Word,
    (∀ r ∈ opcodeRows, r.fits w = true → (decode w).mnemonic = r.mnemonic) ∧
    (decode w = .unknown w ↔ ∀ r ∈ opcodeRows, r.fits w = false) ∧
    (decode w = .unknown w ↔ unknownWord w = true)

/-- Every instruction is two bytes: its bytes in front of any others decode to it and leave the others (R90; the order of
the bytes is the spec's decision D1, log 6). That fewer than two bytes are refused as truncated is no rule of the spec but
the model's own choice (DESIGN CHOICE, log 32): the machine's fetch always has two. -/
def Obligations.EveryInstructionIsTwoBytes : Prop :=
  (∀ (i : Instr) (rest : List Byte), i.wellFormed = true →
    (encodeBytes i).length = 2 ∧ decodeBytes (encodeBytes i ++ rest) = .ok (i, rest)) ∧
  (∀ bytes : List Byte, bytes.length < 2 → decodeBytes bytes = .error .truncated)

/-! ### The step (40_step_cycle.md) -/

/-- A step event runs the decoded instruction: step is exec of it in the state with the inputs sampled, `pc` advanced by
2, `diag` cleared and the event taken; with an empty agenda the inputs are the free ones. The order is R120's; that `pc`
wraps modulo 65536 is the spec's decision D3 (log 7), the agenda is the model's (log 3). -/
def Obligations.StepRunsTheDecodedInstruction : Prop :=
  ∀ (s : State) (keys : Keys) (rnd : Byte) (rest : List HostEvent) (i : Instr),
    s.stepsWith keys rnd rest → decode s.fetchWord = i →
    step s = exec i (s.inStep keys rnd rest) ∧
    (s.inStep keys rnd rest).pc = s.pc + 2 ∧ (s.inStep keys rnd rest).diag = .none ∧
    (s.inStep keys rnd rest).keys = keys ∧ (s.inStep keys rnd rest).rnd = rnd ∧
    (s.inStep keys rnd rest).agenda = rest ∧ Frame noReg (.pc :: stepParts) s (s.inStep keys rnd rest)

/-- The fetch is two one-byte reads at `pc` and `pc + 1`, each reduced modulo 4096, the first the more significant,
whatever the parity of `pc`. Big-endian is the spec's decision D1 (log 6), the odd `pc` its decision D4 (log 7). -/
def Obligations.FetchIsTwoReducedBytes : Prop :=
  ∀ s : State, s.fetchWord.toNat =
    (s.mem.read s.font (s.pc.toNat % 4096)).toNat * 256 + (s.mem.read s.font ((s.pc.toNat + 1) % 4096)).toNat

/-- A store is seen by the very next fetch: when FX55 stores V[k] and V[k+1] over the two bytes at the next `pc`, the next
word is those two registers (R73). -/
def Obligations.StoredBytesAreFetchedNext : Prop :=
  ∀ (s : State) (x : Reg) (k : Nat), k < x.toNat → s.pc.toNat % 4096 = s.effectiveAddr k →
    ∃ t, exec (.storeRegs x) s = .next t ∧ t.pc = s.pc ∧
      t.fetchWord = wordOfBytes (s.getV (BitVec.ofNat 4 k)) (s.getV (BitVec.ofNat 4 (k + 1)))

/-- No instruction blocks, traps or fails: exec answers a next state for every instruction in every state; every event is
performed but for the breaches of the boot order, each refused by its own name (R123, R240; R275, R276, log 18). -/
def Obligations.EveryInstructionCompletes : Prop :=
  (∀ (i : Instr) (s : State), ∃ t, exec i s = .next t) ∧
  (∀ (s : State) (keys : Keys) (rnd : Byte) (rest : List HostEvent), s.stepsWith keys rnd rest → ∃ t, step s = .next t) ∧
  (∀ s : State, (∃ t, step s = .next t) ∨
    (step s = .refused .steppedBeforeLoad ∧ s.loaded = false) ∨
    (step s = .refused .steppedAfterRefusedLoad ∧ s.loadStatus = .programTooLarge) ∨
    (step s = .refused .tickedOutOfOrder ∧ ¬ s.running) ∨
    (step s = .refused .loadedTwice ∧ s.loaded = true) ∨
    (step s = .refused .loadAfterFirstStep ∧ s.started = true))

/-- What a step's inputs and its diagnostic have to do with: `keys` is read by EX9E, EXA1 and FX0A alone, `rnd` by CXNN
alone; an instruction sees the snapshot of its own step, no copy of an earlier one; `diag` is None but after a 2NNN that
found the stack full and a 00EE that found it empty (R124). -/
def Obligations.StepInputsAndDiagnostic : Prop :=
  (∀ (i : Instr) (s t : State) (k : Keys), ¬ readsKeys i → exec i s = .next t →
    exec i { s with keys := k } = .next { t with keys := k }) ∧
  (∀ (i : Instr) (s t : State) (r : Byte), ¬ readsRnd i → exec i s = .next t →
    exec i { s with rnd := r } = .next { t with rnd := r }) ∧
  (∀ (s : State) (keys k : Keys) (rnd r : Byte) (rest : List HostEvent), s.stepsWith keys rnd rest →
    step { s with keys := k, rnd := r } = step s) ∧
  (∀ (s t : State) (keys : Keys) (rnd : Byte) (rest : List HostEvent), s.stepsWith keys rnd rest → step s = .next t →
    (t.diag = .stackOverflow ↔ s.sp = 16 ∧ ∃ nnn, decode s.fetchWord = .call nnn) ∧
    (t.diag = .stackUnderflow ↔ s.sp = 0 ∧ decode s.fetchWord = .ret))

/-! ### Control transfer (41_control_flow.md) -/

/-- 00EE: on an empty stack only `diag` changes, to StackUnderflow; else `pc` is the newest entry, which keeps its value.
That the failed instruction is a whole no-op is the spec's decision D11 (log 14), the layout D21 (log 17). -/
def Obligations.ReturnPopsOrSignals : Prop :=
  ∀ s : State, EncodedBy .ret 0x00EE 0xFFFF ∧ ∃ t, exec .ret s = .next t ∧
    ((s.sp = 0 ∧ t.diag = .stackUnderflow ∧ Frame noReg [.diag] s t) ∨
     (∃ k : Fin 16, s.sp.val = k.val + 1 ∧ t.sp.val = k.val ∧ t.pc = s.stackAt k ∧ Frame noReg [.pc, .sp] s t))

/-- 1NNN: `pc` is the zero-extended address, whatever it is, and nothing else changes; a jump to itself is repeated by
the next step and changes nothing of the machine (R142). -/
def Obligations.JumpLoadsTheAddress : Prop :=
  (∀ (nnn : Addr12) (s : State), EncodedBy (.jp nnn) 0x1000 0xF000 ∧
    ∃ t, exec (.jp nnn) s = .next t ∧ t.pc.toNat = nnn.toNat ∧ Frame noReg [.pc] s t) ∧
  (∀ (nnn : Addr12) (s : State) (keys : Keys) (rnd : Byte) (rest : List HostEvent), s.stepsWith keys rnd rest →
    decode s.fetchWord = .jp nnn → nnn.toNat = s.pc.toNat →
    ∃ t, step s = .next t ∧ t.fetchWord = s.fetchWord ∧ Frame noReg stepParts s t)

/-- 2NNN: on a full stack only `diag` changes, to StackOverflow; else the address after the call is pushed and `pc` is
the address. The whole no-op is the spec's decision D11 (log 14), the layout D21 (log 17). -/
def Obligations.CallPushesOrSignals : Prop :=
  ∀ (nnn : Addr12) (s : State), EncodedBy (.call nnn) 0x2000 0xF000 ∧ ∃ t, exec (.call nnn) s = .next t ∧
    ((s.sp = 16 ∧ t.diag = .stackOverflow ∧ Frame noReg [.diag] s t) ∨
     (∃ k : Fin 16, s.sp.val = k.val ∧ t.sp.val = k.val + 1 ∧ t.stackAt k = s.pc ∧
       (∀ j : Fin 16, j ≠ k → t.stackAt j = s.stackAt j) ∧ t.pc.toNat = nnn.toNat ∧
       Frame noReg [.pc, .sp, .stack] s t))

/-- A call whose target is a return, run as two steps of the machine: `pc` is back at the instruction after the call,
`sp` is as before, and nothing but the stale stack entry and the step's own parts changed (R141, R143). -/
def Obligations.CallThenReturnComesBack : Prop :=
  ∀ (s : State) (nnn : Addr12) (k1 k2 : Keys) (r1 r2 : Byte) (rest : List HostEvent),
    s.stepsWith k1 r1 (.step k2 r2 :: rest) → s.sp.val < 16 → decode s.fetchWord = .call nnn →
    wordOfBytes (s.readByte nnn.toNat) (s.readByte (nnn.toNat + 1)) = 0x00EE#16 →
    ∃ t, runEvents 2 s = .next t ∧ t.pc = s.pc + 2 ∧ t.sp = s.sp ∧ t.diag = .none ∧
      t.agenda = rest ∧ Frame noReg (.pc :: .stack :: stepParts) s t

/-- 3XNN and 4XNN: `pc` moves on by 2 exactly when the condition holds; nothing else changes (R144, R145). -/
def Obligations.SkipsCompareWithTheImmediate : Prop :=
  ∀ (x : Reg) (nn : Byte) (s : State),
    EncodedBy (.seImm x nn) 0x3000 0xF000 ∧ EncodedBy (.sneImm x nn) 0x4000 0xF000 ∧
    (∃ t, exec (.seImm x nn) s = .next t ∧
      t.pc.toNat = (if s.getV x = nn then (s.pc.toNat + 2) % 65536 else s.pc.toNat) ∧ Frame noReg [.pc] s t) ∧
    (∃ t, exec (.sneImm x nn) s = .next t ∧
      t.pc.toNat = (if s.getV x ≠ nn then (s.pc.toNat + 2) % 65536 else s.pc.toNat) ∧ Frame noReg [.pc] s t)

/-- 5XY0 and 9XY0: `pc` moves on by 2 exactly when the condition holds; nothing else changes (R146, R147). -/
def Obligations.SkipsCompareRegisters : Prop :=
  ∀ (x y : Reg) (s : State),
    EncodedBy (.seReg x y) 0x5000 0xF00F ∧ EncodedBy (.sneReg x y) 0x9000 0xF00F ∧
    (∃ t, exec (.seReg x y) s = .next t ∧
      t.pc.toNat = (if s.getV x = s.getV y then (s.pc.toNat + 2) % 65536 else s.pc.toNat) ∧ Frame noReg [.pc] s t) ∧
    (∃ t, exec (.sneReg x y) s = .next t ∧
      t.pc.toNat = (if s.getV x ≠ s.getV y then (s.pc.toNat + 2) % 65536 else s.pc.toNat) ∧ Frame noReg [.pc] s t)

/-- BNNN: `pc` is `V[0] + nnn`, always V0, not reduced modulo 4096 (the spec's decision D29, log 21). -/
def Obligations.IndexedJumpAddsV0 : Prop :=
  ∀ (nnn : Addr12) (s : State), EncodedBy (.jpV0 nnn) 0xB000 0xF000 ∧
    ∃ t, exec (.jpV0 nnn) s = .next t ∧ t.pc.toNat = nnn.toNat + (s.getV 0).toNat ∧ Frame noReg [.pc] s t

/-- Every word of R97's list is a no-op: a step at it advances `pc` by 2 and changes nothing else of the machine (R98; the
list rests on the spec's decision D10, log 13). -/
def Obligations.UnknownOpcodeIsANoOp : Prop :=
  (∀ (w : Word) (s : State), ∃ t, exec (.unknown w) s = .next t ∧ t.pc = s.pc ∧ Frame noReg [] s t) ∧
  (∀ (s : State) (keys : Keys) (rnd : Byte) (rest : List HostEvent), s.stepsWith keys rnd rest →
    unknownWord s.fetchWord = true →
    ∃ t, step s = .next t ∧ t.pc = s.pc + 2 ∧ t.diag = .none ∧ Frame noReg (.pc :: stepParts) s t)

/-! ### Registers and the ALU (42_alu.md) -/

/-- 6XNN, 7XNN, 8XY0: the destination gets `nn`, the sum modulo 256, the copy; no flag, and nothing else changes, VF
included unless it is the destination (R161, R162, R163). -/
def Obligations.RegisterLoadsAndAddImmediate : Prop :=
  (∀ (x : Reg) (nn : Byte) (s : State), EncodedBy (.ldImm x nn) 0x6000 0xF000 ∧
    ∃ t, exec (.ldImm x nn) s = .next t ∧ t.getV x = nn ∧ Frame (onlyReg x) [] s t) ∧
  (∀ (x : Reg) (nn : Byte) (s : State), EncodedBy (.addImm x nn) 0x7000 0xF000 ∧
    ∃ t, exec (.addImm x nn) s = .next t ∧ (t.getV x).toNat = ((s.getV x).toNat + nn.toNat) % 256 ∧
      Frame (onlyReg x) [] s t) ∧
  (∀ (x y : Reg) (s : State), EncodedBy (.ldReg x y) 0x8000 0xF00F ∧
    ∃ t, exec (.ldReg x y) s = .next t ∧ t.getV x = s.getV y ∧ Frame (onlyReg x) [] s t)

/-- 8XY1, 8XY2, 8XY3: bit by bit OR, AND, XOR of the values on entry; VF is not zeroed (R164, R165, R166). -/
def Obligations.LogicOperations : Prop :=
  ∀ (x y : Reg) (s : State),
    EncodedBy (.orReg x y) 0x8001 0xF00F ∧ EncodedBy (.andReg x y) 0x8002 0xF00F ∧ EncodedBy (.xorReg x y) 0x8003 0xF00F ∧
    (∃ t, exec (.orReg x y) s = .next t ∧ Frame (onlyReg x) [] s t ∧
      ∀ k < 8, (t.getV x).getLsbD k = ((s.getV x).getLsbD k || (s.getV y).getLsbD k)) ∧
    (∃ t, exec (.andReg x y) s = .next t ∧ Frame (onlyReg x) [] s t ∧
      ∀ k < 8, (t.getV x).getLsbD k = ((s.getV x).getLsbD k && (s.getV y).getLsbD k)) ∧
    (∃ t, exec (.xorReg x y) s = .next t ∧ Frame (onlyReg x) [] s t ∧
      ∀ k < 8, (t.getV x).getLsbD k = ((s.getV x).getLsbD k != (s.getV y).getLsbD k))

/-- 8XY4: `V[x]` is the sum modulo 256 of the values on entry and VF the carry; when `x` is VF the sum is what stays. What
happens when `x` is VF is the spec's sequential reading, its decision D5 (log 8). -/
def Obligations.AddSetsCarry : Prop :=
  ∀ (x y : Reg) (s : State), EncodedBy (.addReg x y) 0x8004 0xF00F ∧ ∃ t, exec (.addReg x y) s = .next t ∧
    (t.getV x).toNat = ((s.getV x).toNat + (s.getV y).toNat) % 256 ∧
    (x ≠ vF → (t.getV vF).toNat = if (s.getV x).toNat + (s.getV y).toNat > 255 then 1 else 0) ∧
    Frame (regAndVF x) [] s t

/-- 8XY5 and 8XY7: difference modulo 256 and no-borrow flag, case by case as R168 and R170 give them when `x` or `y` is VF
(the spec's sequential reading, its decision D5, log 8). -/
def Obligations.SubtractSetsNoBorrow : Prop :=
  ∀ (x y : Reg) (s : State),
    EncodedBy (.subReg x y) 0x8005 0xF00F ∧ EncodedBy (.subnReg x y) 0x8007 0xF00F ∧
    (∃ t f, exec (.subReg x y) s = .next t ∧ f = (if (s.getV x).toNat ≥ (s.getV y).toNat then 1#8 else 0#8) ∧
      (x ≠ vF → t.getV vF = f) ∧ (x ≠ vF → y ≠ vF → t.getV x = s.getV x - s.getV y) ∧
      (x ≠ vF → y = vF → t.getV x = s.getV x - f) ∧ (x = vF → y ≠ vF → t.getV x = f - s.getV y) ∧
      (x = vF → y = vF → t.getV x = 0#8) ∧ Frame (regAndVF x) [] s t) ∧
    (∃ t f, exec (.subnReg x y) s = .next t ∧ f = (if (s.getV y).toNat ≥ (s.getV x).toNat then 1#8 else 0#8) ∧
      (x ≠ vF → t.getV vF = f) ∧ (x ≠ vF → y ≠ vF → t.getV x = s.getV y - s.getV x) ∧
      (x ≠ vF → y = vF → t.getV x = f - s.getV x) ∧ (x = vF → y ≠ vF → t.getV x = s.getV y - f) ∧
      (x = vF → y = vF → t.getV x = 0#8) ∧ Frame (regAndVF x) [] s t)

/-- 8XY6 and 8XYE: `V[x]` halved or doubled modulo 256, VF the bit shifted out; `y` has no effect; when `x` is VF the
result is what stays (0 after 8XY6, 0 or 2 after 8XYE). The operand `V[x]` is the spec's decision D18 (log 33), the VF
case its decision D5 (log 8). -/
def Obligations.ShiftsSetTheBitShiftedOut : Prop :=
  ∀ (x y : Reg) (s : State),
    EncodedBy (.shr x y) 0x8006 0xF00F ∧ EncodedBy (.shl x y) 0x800E 0xF00F ∧
    (∃ t, exec (.shr x y) s = .next t ∧
      (x ≠ vF → (t.getV x).toNat = (s.getV x).toNat / 2 ∧ (t.getV vF).toNat = (s.getV x).toNat % 2) ∧
      (x = vF → t.getV vF = 0#8) ∧ Frame (regAndVF x) [] s t) ∧
    (∃ t, exec (.shl x y) s = .next t ∧
      (x ≠ vF → (t.getV x).toNat = (s.getV x).toNat * 2 % 256 ∧ (t.getV vF).toNat = (s.getV x).toNat / 128) ∧
      (x = vF → (t.getV vF).toNat = (s.getV x).toNat / 128 * 2) ∧ Frame (regAndVF x) [] s t)

/-- CXNN: the step's random byte AND `nn`, so no bit is set that `nn` lacks. The byte is the free input of the spec's
decision D15 (log 2); nothing here rests on its value. -/
def Obligations.RandomIsMasked : Prop :=
  ∀ (x : Reg) (nn : Byte) (s : State), EncodedBy (.rnd x nn) 0xC000 0xF000 ∧
    ∃ t, exec (.rnd x nn) s = .next t ∧ Frame (onlyReg x) [] s t ∧
      ∀ k < 8, (t.getV x).getLsbD k = (s.rnd.getLsbD k && nn.getLsbD k)

/-! ### Index register and memory transfer (43_index_memory.md) -/

/-- ANNN and FX1E: `I` is the zero-extended address, or the sum modulo 65536; VF is not written, neither on overflow nor on
wrap (R181, R182). -/
def Obligations.IndexIsLoadedAndAdded : Prop :=
  (∀ (nnn : Addr12) (s : State), EncodedBy (.ldIndex nnn) 0xA000 0xF000 ∧
    ∃ t, exec (.ldIndex nnn) s = .next t ∧ t.index.toNat = nnn.toNat ∧ Frame noReg [.index] s t) ∧
  (∀ (x : Reg) (s : State), EncodedBy (.addIndex x) 0xF01E 0xF0FF ∧
    ∃ t, exec (.addIndex x) s = .next t ∧ t.index.toNat = (s.index.toNat + (s.getV x).toNat) % 65536 ∧
      Frame noReg [.index] s t)

/-- FX29: `I` is `80 + V[x] * 5` of the whole register; not masking it is the spec's decision D23 (log 21). -/
def Obligations.GlyphAddressIsFiveApart : Prop :=
  ∀ (x : Reg) (s : State), EncodedBy (.ldGlyph x) 0xF029 0xF0FF ∧
    ∃ t, exec (.ldGlyph x) s = .next t ∧ t.index.toNat = 80 + (s.getV x).toNat * 5 ∧ Frame noReg [.index] s t

/-- FX33: hundreds, tens and units of `V[x]` at `I`, `I+1`, `I+2`, each address reduced separately; every other byte and
everything else is unchanged (R184). -/
def Obligations.DecimalDigitsAreStored : Prop :=
  ∀ (x : Reg) (s : State), EncodedBy (.bcd x) 0xF033 0xF0FF ∧ ∃ t, exec (.bcd x) s = .next t ∧
    (t.readByte (s.effectiveAddr 0)).toNat = (s.getV x).toNat / 100 ∧
    (t.readByte (s.effectiveAddr 1)).toNat = (s.getV x).toNat / 10 % 10 ∧
    (t.readByte (s.effectiveAddr 2)).toNat = (s.getV x).toNat % 10 ∧
    (∀ a, (∀ k < 3, a % 4096 ≠ s.effectiveAddr k) → t.readByte a = s.readByte a) ∧ Frame noReg [.memory] s t

/-- FX55: `V[k]` at `I + k` for `k` in 0..x, each address reduced separately; `I`, every register, every other byte and
everything else is unchanged (R185). -/
def Obligations.RegistersAreStored : Prop :=
  ∀ (x : Reg) (s : State), EncodedBy (.storeRegs x) 0xF055 0xF0FF ∧ ∃ t, exec (.storeRegs x) s = .next t ∧
    (∀ k ≤ x.toNat, t.readByte (s.effectiveAddr k) = s.getV (BitVec.ofNat 4 k)) ∧
    (∀ a, (∀ k ≤ x.toNat, a % 4096 ≠ s.effectiveAddr k) → t.readByte a = s.readByte a) ∧ Frame noReg [.memory] s t

/-- FX65: `V[k]` is the byte at `I + k` for `k` in 0..x; registers above `x`, memory and everything else are unchanged; and
loading what FX55 stored restores the registers (R186). -/
def Obligations.RegistersAreLoaded : Prop :=
  (∀ (x : Reg) (s : State), EncodedBy (.loadRegs x) 0xF065 0xF0FF ∧ ∃ t, exec (.loadRegs x) s = .next t ∧
    (∀ k ≤ x.toNat, t.getV (BitVec.ofNat 4 k) = s.readByte (s.effectiveAddr k)) ∧ Frame (regsTo x) [] s t) ∧
  (∀ (x : Reg) (s t u : State), exec (.storeRegs x) s = .next t → u.index = t.index →
    (∀ a, u.readByte a = t.readByte a) →
    ∃ w, exec (.loadRegs x) u = .next w ∧ ∀ r : Reg, r.toNat ≤ x.toNat → w.getV r = s.getV r)

/-! ### Display (44_display.md) -/

/-- 00E0: every cell is off whatever it was; VF and everything else is unchanged (R200). -/
def Obligations.ClearTurnsEveryCellOff : Prop :=
  ∀ s : State, EncodedBy .cls 0x00E0 0xFFFF ∧
    ∃ t, exec .cls s = .next t ∧ (∀ cx < 64, ∀ cy < 32, t.fb.cell cx cy = false) ∧ Frame noReg [.fb] s t

/-- DXYN as one formula: every cell is its old value XOR the sprite bit on it, with the start reduced to the screen and
the sprite clipped, and VF is 1 exactly when a set bit falls on a cell that is on. Sprite bytes at `I` and coordinates
read before VF is written are the spec's decision D6 (log 9). -/
def Obligations.DrawXorsTheSpriteAndReportsCollision : Prop :=
  ∀ (x y : Reg) (n : BitVec 4) (s : State), EncodedBy (.drw x y n) 0xD000 0xF000 ∧
    ∃ t covers, exec (.drw x y n) s = .next t ∧
      covers = spriteCovers s ((s.getV x).toNat % 64) ((s.getV y).toNat % 32) n.toNat ∧
      (∀ cx < 64, ∀ cy < 32, t.fb.cell cx cy = (s.fb.cell cx cy != covers cx cy)) ∧
      ((∃ cx < 64, ∃ cy < 32, covers cx cy = true ∧ s.fb.cell cx cy = true) → t.getV vF = 1#8) ∧
      ((¬ ∃ cx < 64, ∃ cy < 32, covers cx cy = true ∧ s.fb.cell cx cy = true) → t.getV vF = 0#8) ∧
      Frame (onlyReg vF) [.fb] s t

/-- Drawing the same sprite twice from the same start restores the framebuffer, and the second draw collides exactly when a
set bit on screen fell on a cell that was off before the first (44_display.md on R203 a; D6, log 9). -/
def Obligations.DrawingTwiceRestoresTheScreen : Prop :=
  ∀ (x y : Reg) (n : BitVec 4) (s t u : State), exec (.drw x y n) s = .next t → exec (.drw x y n) t = .next u →
    (t.getV x).toNat % 64 = (s.getV x).toNat % 64 → (t.getV y).toNat % 32 = (s.getV y).toNat % 32 →
    (∀ cx < 64, ∀ cy < 32, u.fb.cell cx cy = s.fb.cell cx cy) ∧
    (u.getV vF = 1#8 ↔ ∃ cx < 64, ∃ cy < 32, s.fb.cell cx cy = false ∧
      spriteCovers s ((s.getV x).toNat % 64) ((s.getV y).toNat % 32) n.toNat cx cy = true)

/-! ### Timers and keypad (45_timer_keypad.md) -/

/-- FX07 reads the delay timer, FX15 writes it, FX18 writes the sound timer, and `sound_active` follows at once. Which
pattern does which is the spec's decision D7 (log 10). -/
def Obligations.TimersAreReadAndWritten : Prop :=
  ∀ (x : Reg) (s : State),
    EncodedBy (.ldFromDelay x) 0xF007 0xF0FF ∧ EncodedBy (.ldDelay x) 0xF015 0xF0FF ∧ EncodedBy (.ldSound x) 0xF018 0xF0FF ∧
    (∃ t, exec (.ldFromDelay x) s = .next t ∧ t.getV x = s.delayTimer ∧ Frame (onlyReg x) [] s t) ∧
    (∃ t, exec (.ldDelay x) s = .next t ∧ t.delayTimer = s.getV x ∧ Frame noReg [.delayTimer] s t) ∧
    (∃ t, exec (.ldSound x) s = .next t ∧ t.soundTimer = s.getV x ∧
      (t.soundActive = true ↔ (s.getV x).toNat > 0) ∧ Frame noReg [.soundTimer] s t)

/-- EX9E and EXA1: the key tested is the low four bits of `V[x]` (the spec's decision D8, log 11) in this step's snapshot;
`pc` moves on by 2 exactly when the condition holds. -/
def Obligations.KeySkipsTestTheSnapshot : Prop :=
  ∀ (x : Reg) (s : State), EncodedBy (.skp x) 0xE09E 0xF0FF ∧ EncodedBy (.sknp x) 0xE0A1 0xF0FF ∧
    (∃ t, exec (.skp x) s = .next t ∧ Frame noReg [.pc] s t ∧ t.pc.toNat =
      (if s.keys.getLsbD ((s.getV x).toNat % 16) = true then (s.pc.toNat + 2) % 65536 else s.pc.toNat)) ∧
    (∃ t, exec (.sknp x) s = .next t ∧ Frame noReg [.pc] s t ∧ t.pc.toNat =
      (if s.keys.getLsbD ((s.getV x).toNat % 16) = false then (s.pc.toNat + 2) % 65536 else s.pc.toNat))

/-- FX0A: with no key pressed the wait is recorded and `pc` goes back by 2 onto the instruction; with some key pressed the
lowest one goes to `V[x]` and the wait ends. Level, not edge, is the spec's decision D9 (log 12). -/
def Obligations.WaitForKeyTakesTheLowestKey : Prop :=
  ∀ (x : Reg) (s : State), EncodedBy (.waitKey x) 0xF00A 0xF0FF ∧
    (s.keys = 0#16 → ∃ t, exec (.waitKey x) s = .next t ∧ t.awaitingKey = true ∧ t.keyTarget = x ∧ t.pc = s.pc - 2 ∧
      Frame noReg [.awaitingKey, .keyTarget, .pc] s t) ∧
    (s.keys ≠ 0#16 → ∃ t k, exec (.waitKey x) s = .next t ∧ k < 16 ∧ s.keys.getLsbD k = true ∧
      (∀ j < k, s.keys.getLsbD j = false) ∧ (t.getV x).toNat = k ∧ t.awaitingKey = false ∧
      Frame (onlyReg x) [.awaitingKey] s t)

/-! ### Whole-machine rules -/

/-- Only FX33 and FX55 write memory (R68). -/
def Obligations.OnlyStoresWriteMemory : Prop :=
  ∀ (i : Instr) (s t : State), exec i s = .next t → ¬ storesMemory i → ∀ a, t.readByte a = s.readByte a

/-- Only 2NNN and 00EE touch the stack (R24), only 00E0 and DXYN write the framebuffer (R28), only ANNN, FX1E and FX29
write `I` (R22). -/
def Obligations.StackFramebufferAndIndexWriters : Prop :=
  ∀ (i : Instr) (s t : State), exec i s = .next t →
    (¬ usesStack i → t.stack = s.stack ∧ t.sp = s.sp) ∧ (¬ writesFrameBuffer i → t.fb = s.fb) ∧
    (¬ writesIndex i → t.index = s.index)

/-- `pc` is left as the step advanced it by every instruction but the jumps, calls, returns, skips and FX0A (R23). -/
def Obligations.OnlyControlInstructionsChangePc : Prop :=
  ∀ (i : Instr) (s t : State), exec i s = .next t → ¬ changesPc i → t.pc = s.pc

/-- A V register changes only as the destination, or, if it is VF, as the flag of the six instructions that write one;
and where VF is written as a flag only, it is 0 or 1 (R20, R21). -/
def Obligations.RegisterAndFlagWriters : Prop :=
  ∀ (i : Instr) (s t : State), exec i s = .next t →
    (∀ r, ¬ mayWriteReg i r → ¬ (writesFlag i ∧ r = vF) → t.getV r = s.getV r) ∧
    (writesFlag i → ¬ mayWriteReg i vF → t.getV vF = 0#8 ∨ t.getV vF = 1#8)

/-- No event raises a timer but a step that runs FX15 or FX18: the timers are "monotonically non-increasing except for
explicit writes via opcode" (R26, R27, R250). -/
def Obligations.TimersRiseByOpcodeOnly : Prop :=
  ∀ s t : State, step s = .next t →
    (t.delayTimer.toNat ≤ s.delayTimer.toNat ∨ ∃ x, s.takeEvent.1.isStep = true ∧ decode s.fetchWord = .ldDelay x) ∧
    (t.soundTimer.toNat ≤ s.soundTimer.toNat ∨ ∃ x, s.takeEvent.1.isStep = true ∧ decode s.fetchWord = .ldSound x)

/-- `awaiting_key` and `key_target` gate nothing: whatever they hold, every event goes the same way and the states after
differ in these two at most (R29, R126). -/
def Obligations.AwaitingKeyGatesNothing : Prop :=
  ∀ (s t : State) (b : Bool) (k : Reg), step s = .next t →
    ∃ t', step { s with awaitingKey := b, keyTarget := k } = .next t' ∧
      { t' with awaitingKey := t.awaitingKey, keyTarget := t.keyTarget } = t

/-- No instruction and no event reads the sound timer into anything else: whatever it holds, the states after differ in it
at most (R27, R37 d). -/
def Obligations.SoundTimerIsNeverRead : Prop :=
  ∀ (s t : State) (b : Byte), step s = .next t →
    ∃ t', step { s with soundTimer := b } = .next t' ∧ { t' with soundTimer := t.soundTimer } = t

/-! ### Invariants -/

/-- Every event keeps memory in its canonical form, with no address of 4096 or more (R35 e, log 25). -/
def Obligations.EveryEventKeepsMemoryCanonical : Prop :=
  ∀ s t : State, s.MemoryCanonical → step s = .next t → t.MemoryCanonical

/-- Every event keeps this: while `awaiting_key` is true, the next word is an FX0A whose register is `key_target`, so a
model that re-runs FX0A with `x = key_target` without the fetch is observably the same (R126, R221 d). -/
def Obligations.EveryEventKeepsTheWaitAtItsInstruction : Prop :=
  ∀ s t : State, s.AwaitsAtItsInstruction → step s = .next t → t.AwaitsAtItsInstruction

/-- Every event keeps this: StackOverflow is shown only while the stack is full, StackUnderflow only while it is empty
(R241; that a failed call or return leaves `sp` is the spec's decision D11, log 14). -/
def Obligations.EveryEventKeepsDiagMatchingStack : Prop :=
  ∀ s t : State, s.DiagMatchesStack → step s = .next t → t.DiagMatchesStack

/-- Every event keeps the boot order: until its one load the machine is in its reset state, and no step has happened before
an accepted load (R276; the spec's decision D22, log 18). -/
def Obligations.EveryEventKeepsTheBootOrder : Prop :=
  ∀ s t : State, s.BootOrder → step s = .next t → t.BootOrder

/-- No event changes the open parameter FONT: it is fixed for a machine (R5, R32, log 5). -/
def Obligations.NoEventChangesTheFontParameter : Prop :=
  ∀ s t : State, step s = .next t → t.font = s.font

/-- The invariants hold right after reset, whatever the open parameter FONT; the machine right after reset has its default
(R5, R36, R273; log 5, log 15, log 18). -/
def Obligations.InvariantsHoldAtReset : Prop :=
  Host.Core.reset Sys2Proof.core = State.resetWith fontTable ∧
  ∀ font : FontTable, (State.resetWith font).MemoryCanonical ∧ (State.resetWith font).AwaitsAtItsInstruction ∧
    (State.resetWith font).DiagMatchesStack ∧ (State.resetWith font).BootOrder

/-! ### Timer Clock, host and outputs (60_exceptions.md, 70_reset_and_hazards.md, 10_state.md) -/

/-- A tick counts each timer above 0 down by one; a timer at 0 stays; nothing else changes (R250): so the tick in every
state, and so the tick event of a running machine (R276 on when it comes). -/
def Obligations.TickCountsBothTimersDown : Prop :=
  (∀ s : State,
    s.tick.delayTimer.toNat = (if s.delayTimer.toNat > 0 then s.delayTimer.toNat - 1 else 0) ∧
    s.tick.soundTimer.toNat = (if s.soundTimer.toNat > 0 then s.soundTimer.toNat - 1 else 0) ∧
    Frame noReg [.delayTimer, .soundTimer] s s.tick) ∧
  (∀ (s : State) (rest : List HostEvent), s.running → s.agenda = .tick :: rest →
    ∃ t, step s = .next t ∧ t.agenda = rest ∧
      t.delayTimer.toNat = (if s.delayTimer.toNat > 0 then s.delayTimer.toNat - 1 else 0) ∧
      t.soundTimer.toNat = (if s.soundTimer.toNat > 0 then s.soundTimer.toNat - 1 else 0) ∧
      Frame noReg [.delayTimer, .soundTimer, .agenda, .clock] s t)

/-- A value written by FX15 reads back through FX07, after `n` ticks, as `max(value - n, 0)` (60_exceptions.md on the
interplay of ticks and steps; FX07 and FX15 by the spec's decision D7, log 10). -/
def Obligations.DelayReadsBackLessTheTicks : Prop :=
  ∀ (n : Nat) (x y : Reg) (s s1 : State) (rest : List HostEvent), s.running → exec (.ldDelay x) s = .next s1 →
    s1.agenda = List.replicate n .tick ++ rest →
    ∃ s2 s3, runEvents n s1 = .next s2 ∧ s2.agenda = rest ∧ exec (.ldFromDelay y) s2 = .next s3 ∧
      (s3.getV y).toNat = (s.getV x).toNat - n

/-- A reset event, whatever the state, leaves every piece of state at its reset value and begins the boot order anew. FONT
is the machine's own, whatever it is (R5). That `I`, the framebuffer and the awaiting-key record are zeroed too is the
spec's decision D13 (log 16); `loaded` and `started` are the model's (log 18). -/
def Obligations.ResetGivesTheResetState : Prop :=
  ∀ (s : State) (rest : List HostEvent), s.agenda = .reset :: rest →
    ∃ t, step s = .next t ∧ t.agenda = rest ∧
      (∀ a < 80, t.readByte a = 0#8) ∧ (∀ k (h : k < 80), t.readByte (80 + k) = s.font[k]) ∧
      (∀ a, 160 ≤ a → a < 4096 → t.readByte a = 0#8) ∧
      (∀ r, t.getV r = 0#8) ∧ (∀ k, t.stackAt k = 0#16) ∧ t.sp = 0 ∧ t.delayTimer = 0#8 ∧ t.soundTimer = 0#8 ∧
      t.pc = 512#16 ∧ t.index = 0#16 ∧ (∀ cx < 64, ∀ cy < 32, t.fb.cell cx cy = false) ∧ t.awaitingKey = false ∧
      t.keyTarget = 0#4 ∧ t.loaded = false ∧ t.started = false ∧ t.font = s.font

/-- A load of at most 3584 bytes copies the image verbatim to 512 upwards, answers accepted and changes nothing else of the
machine (R274): so the load in every state, and so the load event of a run, the one load that the boot order has (the
spec's decision D22, log 18). -/
def Obligations.LoadCopiesTheImage : Prop :=
  (∀ (s : State) (bytes : List Byte), bytes.length ≤ 3584 →
    (s.load bytes).loadStatus = .accepted ∧
    (∀ k < bytes.length, (s.load bytes).readByte (512 + k) = bytes.getD k 0#8) ∧
    (∀ a < 4096, a < 512 ∨ 512 + bytes.length ≤ a → (s.load bytes).readByte a = s.readByte a) ∧
    Frame noReg [.memory, .loadStatus, .loaded] s (s.load bytes)) ∧
  (∀ (s : State) (bytes : List Byte) (rest : List HostEvent), s.loadsWith bytes rest → bytes.length ≤ 3584 →
    ∃ t, step s = .next t ∧ t.loadStatus = .accepted ∧ t.loaded = true ∧ t.agenda = rest ∧
      (∀ k < bytes.length, t.readByte (512 + k) = bytes.getD k 0#8) ∧
      (∀ a < 4096, a < 512 ∨ 512 + bytes.length ≤ a → t.readByte a = s.readByte a) ∧
      Frame noReg [.memory, .loadStatus, .loaded, .agenda, .clock] s t)

/-- The launch state of every run: from a state that keeps the boot order and is not loaded yet, a load of at most 3584 bytes
gives the reset state with the image at 512 upwards, and the machine then runs. With an empty agenda that load comes by
itself, with a free image (R276; the spec's decision D22, log 18, log 23). -/
def Obligations.EveryRunStartsFromTheLaunchState : Prop :=
  (∀ (s : State) (bytes : List Byte) (rest : List HostEvent), s.BootOrder → s.loadsWith bytes rest →
    bytes.length ≤ 3584 →
    ∃ t, step s = .next t ∧ t.running ∧ t.agenda = rest ∧
      (∀ k < bytes.length, t.readByte (512 + k) = bytes.getD k 0#8) ∧
      (∀ a < 4096, a < 512 ∨ 512 + bytes.length ≤ a → t.readByte a = (State.resetWith s.font).readByte a) ∧
      Frame noReg [.memory, .loaded, .agenda, .clock] (State.resetWith s.font) t) ∧
  (∀ s : State, s.BootOrder → s.loaded = false → s.agenda = [] → ∃ t, step s = .next t ∧ t.running ∧ t.agenda = [])

/-- A load of more than 3584 bytes writes nothing and answers ProgramTooLarge, and after it a step, a tick and a second load
are refused; a step and a tick before any load are refused; so is a second load, before the first step and after it (the
spec's decision D22, log 18). -/
def Obligations.BootOrderBreachesHaveNoMeaning : Prop :=
  (∀ (s : State) (bytes : List Byte) (e : HostEvent) (rest : List HostEvent),
    s.loadsWith bytes (e :: rest) → bytes.length > 3584 →
    ∃ t, step s = .next t ∧ t.loadStatus = .programTooLarge ∧
      Frame noReg [.loadStatus, .loaded, .agenda, .clock] s t ∧
      ((∃ keys rnd, e = .step keys rnd) → step t = .refused .steppedAfterRefusedLoad) ∧
      (e = .tick → step t = .refused .tickedOutOfOrder) ∧
      ((∃ image, e = .load image) → step t = .refused .loadedTwice)) ∧
  (∀ (s : State) (keys : Keys) (rnd : Byte) (rest : List HostEvent), s.loaded = false →
    s.agenda = .step keys rnd :: rest → step s = .refused .steppedBeforeLoad) ∧
  (∀ (s : State) (rest : List HostEvent), s.loaded = false → s.agenda = .tick :: rest →
    step s = .refused .tickedOutOfOrder) ∧
  (∀ (s : State) (bytes : List Byte) (rest : List HostEvent), s.agenda = .load bytes :: rest → s.loaded = true →
    s.started = false → step s = .refused .loadedTwice) ∧
  (∀ (s : State) (bytes : List Byte) (rest : List HostEvent), s.agenda = .load bytes :: rest → s.started = true →
    step s = .refused .loadAfterFirstStep)

/-- One frame of the Step Driver: from any running machine, CYCLES_PER_FRAME steps complete, one for
each pair of inputs, and then exactly one tick, which changes only the timers. The frame as the length of a list of
inputs is the model's form of the open parameter of the spec's decision D17 (log 29). -/
def Obligations.DriverFrameIsStepsThenOneTick : Prop :=
  ∀ (inputs : List (Keys × Byte)) (s : State) (rest : List HostEvent), s.running →
    s.agenda = driverFrame inputs ++ rest →
    ∃ t u, runEvents inputs.length s = .next t ∧ t.agenda = .tick :: rest ∧
      runEvents (inputs.length + 1) s = .next u ∧ u.agenda = rest ∧
      u.delayTimer.toNat = t.delayTimer.toNat - 1 ∧ u.soundTimer.toNat = t.soundTimer.toNat - 1 ∧
      Frame noReg [.delayTimer, .soundTimer, .agenda, .clock] t u

/-- A finished program stays finished: from a state whose word at `pc` is a jump to `pc`, a step changes nothing of the
machine, and a tick changes the timers alone. The definition of finished is the spec's decision D25 (log 30). -/
def Obligations.FinishedProgramStaysFinished : Prop :=
  ∀ s t : State, s.finished → step s = .next t →
    ((∃ keys rnd, s.takeEvent.1 = .step keys rnd) → t.finished ∧ Frame noReg stepParts s t) ∧
    (s.takeEvent.1 = .tick → t.finished ∧ Frame noReg [.delayTimer, .soundTimer, .agenda, .clock] s t)

/-- `sound_active` is the combinational output `sound_timer > 0` (R249). -/
def Obligations.SoundActiveIsTimerAboveZero : Prop :=
  ∀ s : State, s.soundActive = true ↔ s.soundTimer.toNat > 0

/-- The framebuffer as one sequence of 2048 cells is row-major: cell `(x, y)` is element `y * 64 + x` (R28). -/
def Obligations.FramebufferSequenceIsRowMajor : Prop :=
  ∀ s : State, s.fbSequence.length = 2048 ∧
    ∀ cx < 64, ∀ cy < 32, s.fbSequence[cy * 64 + cx]? = some (s.fbOut cx cy)
end

