-- ==== Sys2Proof/Laws/Codec.lean ====
section
/-! SUPPORT. The fields of a packed word, and a word from its fields (30_encoding.md R91, R92): the bit facts behind every
statement about encodings. -/

namespace Sys2Proof

/-- Concatenation as arithmetic (R6: the left part is the more significant). -/
theorem toNat_append_eq {m n : Nat} (a : BitVec m) (b : BitVec n) : (a ++ b).toNat = a.toNat * 2 ^ n + b.toNat := by
  rw [BitVec.toNat_append, ← Nat.shiftLeft_add_eq_or_of_lt b.isLt, Nat.shiftLeft_eq]

theorem packXYN_toNat (g x y n : BitVec 4) :
    (packXYN g x y n).toNat = g.toNat * 4096 + x.toNat * 256 + y.toNat * 16 + n.toNat := by
  have e : (packXYN g x y n).toNat = ((g ++ x) ++ (y ++ n)).toNat := rfl
  rw [e]
  simp only [toNat_append_eq]
  omega

theorem packXNN_toNat (g x : BitVec 4) (nn : Byte) :
    (packXNN g x nn).toNat = g.toNat * 4096 + x.toNat * 256 + nn.toNat := by
  have e : (packXNN g x nn).toNat = ((g ++ x) ++ nn).toNat := rfl
  rw [e]
  simp only [toNat_append_eq]
  omega

theorem packNNN_toNat (g : BitVec 4) (nnn : Addr12) : (packNNN g nnn).toNat = g.toNat * 4096 + nnn.toNat := by
  have e : (packNNN g nnn).toNat = (g ++ nnn).toNat := rfl
  rw [e, toNat_append_eq]
  omega

/-! ### The fields as arithmetic -/

theorem fieldGroup_toNat (w : Word) : (fieldGroup w).toNat = w.toNat / 4096 := by
  have := w.isLt
  simp only [fieldGroup, BitVec.extractLsb'_toNat, Nat.shiftRight_eq_div_pow]
  omega

theorem fieldX_toNat (w : Word) : (fieldX w).toNat = w.toNat / 256 % 16 := by
  simp only [fieldX, BitVec.extractLsb'_toNat, Nat.shiftRight_eq_div_pow]

theorem fieldY_toNat (w : Word) : (fieldY w).toNat = w.toNat / 16 % 16 := by
  simp only [fieldY, BitVec.extractLsb'_toNat, Nat.shiftRight_eq_div_pow]

theorem fieldN_toNat (w : Word) : (fieldN w).toNat = w.toNat % 16 := by
  simp only [fieldN, BitVec.extractLsb'_toNat, Nat.shiftRight_eq_div_pow]
  omega

theorem fieldNN_toNat (w : Word) : (fieldNN w).toNat = w.toNat % 256 := by
  simp only [fieldNN, BitVec.extractLsb'_toNat, Nat.shiftRight_eq_div_pow]
  omega

theorem fieldNNN_toNat (w : Word) : (fieldNNN w).toNat = w.toNat % 4096 := by
  simp only [fieldNNN, BitVec.extractLsb'_toNat, Nat.shiftRight_eq_div_pow]
  omega

/-! ### The fields of a packed word -/

section
variable (g x y n : BitVec 4) (nn : Byte) (nnn : Addr12)

@[simp] theorem fieldGroup_packXYN : fieldGroup (packXYN g x y n) = g := by
  apply BitVec.eq_of_toNat_eq
  rw [fieldGroup_toNat, packXYN_toNat]
  have := g.isLt; have := x.isLt; have := y.isLt; have := n.isLt
  omega

@[simp] theorem fieldX_packXYN : fieldX (packXYN g x y n) = x := by
  apply BitVec.eq_of_toNat_eq
  rw [fieldX_toNat, packXYN_toNat]
  have := g.isLt; have := x.isLt; have := y.isLt; have := n.isLt
  omega

@[simp] theorem fieldY_packXYN : fieldY (packXYN g x y n) = y := by
  apply BitVec.eq_of_toNat_eq
  rw [fieldY_toNat, packXYN_toNat]
  have := g.isLt; have := x.isLt; have := y.isLt; have := n.isLt
  omega

@[simp] theorem fieldN_packXYN : fieldN (packXYN g x y n) = n := by
  apply BitVec.eq_of_toNat_eq
  rw [fieldN_toNat, packXYN_toNat]
  have := n.isLt
  omega

@[simp] theorem fieldGroup_packXNN : fieldGroup (packXNN g x nn) = g := by
  apply BitVec.eq_of_toNat_eq
  rw [fieldGroup_toNat, packXNN_toNat]
  have := g.isLt; have := x.isLt; have := nn.isLt
  omega

@[simp] theorem fieldX_packXNN : fieldX (packXNN g x nn) = x := by
  apply BitVec.eq_of_toNat_eq
  rw [fieldX_toNat, packXNN_toNat]
  have := g.isLt; have := x.isLt; have := nn.isLt
  omega

@[simp] theorem fieldNN_packXNN : fieldNN (packXNN g x nn) = nn := by
  apply BitVec.eq_of_toNat_eq
  rw [fieldNN_toNat, packXNN_toNat]
  have := nn.isLt
  omega

@[simp] theorem fieldGroup_packNNN : fieldGroup (packNNN g nnn) = g := by
  apply BitVec.eq_of_toNat_eq
  rw [fieldGroup_toNat, packNNN_toNat]
  have := g.isLt; have := nnn.isLt
  omega

@[simp] theorem fieldNNN_packNNN : fieldNNN (packNNN g nnn) = nnn := by
  apply BitVec.eq_of_toNat_eq
  rw [fieldNNN_toNat, packNNN_toNat]
  have := nnn.isLt
  omega

end

/-! ### A word from its fields -/

theorem packXYN_fields (w : Word) : packXYN (fieldGroup w) (fieldX w) (fieldY w) (fieldN w) = w := by
  apply BitVec.eq_of_toNat_eq
  rw [packXYN_toNat, fieldGroup_toNat, fieldX_toNat, fieldY_toNat, fieldN_toNat]
  have := w.isLt
  omega

theorem packXNN_fields (w : Word) : packXNN (fieldGroup w) (fieldX w) (fieldNN w) = w := by
  apply BitVec.eq_of_toNat_eq
  rw [packXNN_toNat, fieldGroup_toNat, fieldX_toNat, fieldNN_toNat]
  have := w.isLt
  omega

theorem packNNN_fields (w : Word) : packNNN (fieldGroup w) (fieldNNN w) = w := by
  apply BitVec.eq_of_toNat_eq
  rw [packNNN_toNat, fieldGroup_toNat, fieldNNN_toNat]
  have := w.isLt
  omega

/-- The two bytes of a word make it again (R65, R90). -/
@[simp] theorem wordOfBytes_high_low (w : Word) : wordOfBytes (highByte w) (lowByte w) = w := by
  apply BitVec.eq_of_toNat_eq
  have e : (wordOfBytes (highByte w) (lowByte w)).toNat = (highByte w ++ lowByte w).toNat := rfl
  rw [e, toNat_append_eq]
  simp only [highByte, lowByte, BitVec.extractLsb'_toNat, Nat.shiftRight_eq_div_pow]
  have := w.isLt
  omega

/-- R97's list by the decoder's own fields. -/
theorem unknownWord_fields (w : Word) : unknownWord w =
    (match (fieldGroup w).toNat with
      | 0 => w != 0x00E0#16 && w != 0x00EE#16
      | 5 => (fieldN w).toNat != 0
      | 8 => [8, 9, 0xA, 0xB, 0xC, 0xD, 0xF].contains (fieldN w).toNat
      | 9 => (fieldN w).toNat != 0
      | 0xE => !([0x9E, 0xA1].contains (fieldNN w).toNat)
      | 0xF => !([0x07, 0x0A, 0x15, 0x18, 0x1E, 0x29, 0x33, 0x55, 0x65].contains (fieldNN w).toNat)
      | _ => false) := by
  have h (k : Nat) (hk : k < 65536) : (w.toNat != k) = (w != BitVec.ofNat 16 k) := by
    have : w.toNat = k ↔ w = BitVec.ofNat 16 k := by
      rw [← BitVec.toNat_inj, BitVec.toNat_ofNat, Nat.mod_eq_of_lt hk]
    by_cases e : w.toNat = k
    · rw [bne_eq_false_iff_eq.2 e, bne_eq_false_iff_eq.2 (this.1 e)]
    · rw [bne_iff_ne.2 e, bne_iff_ne.2 fun x => e (this.2 x)]
  rw [fieldGroup_toNat, fieldN_toNat, fieldNN_toNat, unknownWord, h 0xE0 (by decide), h 0xEE (by decide)] <;> rfl

/-! ### Masks of the opcode table (R95): a mask keeps whole fields -/

/-- Two words agree under a mask when they agree in the fields the mask keeps. -/
theorem and_mask_F000 (w : Word) : w &&& 0xF000#16 = packNNN (fieldGroup w) 0#12 := by
  rw [← packNNN_fields w]
  generalize fieldGroup w = g
  generalize fieldNNN w = nnn
  simp only [fieldGroup_packNNN]
  have e : (packNNN g nnn &&& 0xF000#16) = ((g ++ nnn) &&& (0xF#4 ++ 0#12) : BitVec (4 + 12)) := rfl
  rw [e, BitVec.and_append, BitVec.and_zero]
  have hg : g &&& 0xF#4 = g := BitVec.and_allOnes
  rw [hg]
  rfl

theorem and_mask_F00F (w : Word) : w &&& 0xF00F#16 = packXYN (fieldGroup w) 0#4 0#4 (fieldN w) := by
  rw [← packXYN_fields w]
  generalize fieldGroup w = g
  generalize fieldX w = x
  generalize fieldY w = y
  generalize fieldN w = n
  simp only [fieldGroup_packXYN, fieldN_packXYN]
  have e : (packXYN g x y n &&& 0xF00F#16) =
      (((g ++ x) ++ (y ++ n)) &&& ((0xF#4 ++ 0#4) ++ (0#4 ++ 0xF#4)) : BitVec ((4 + 4) + (4 + 4))) := rfl
  rw [e, BitVec.and_append, BitVec.and_append, BitVec.and_append, BitVec.and_zero, BitVec.and_zero]
  have hg : g &&& 0xF#4 = g := BitVec.and_allOnes
  have hn : n &&& 0xF#4 = n := BitVec.and_allOnes
  rw [hg, hn]
  rfl

theorem and_mask_F0FF (w : Word) : w &&& 0xF0FF#16 = packXNN (fieldGroup w) 0#4 (fieldNN w) := by
  rw [← packXNN_fields w]
  generalize fieldGroup w = g
  generalize fieldX w = x
  generalize fieldNN w = nn
  simp only [fieldGroup_packXNN, fieldNN_packXNN]
  have e : (packXNN g x nn &&& 0xF0FF#16) =
      (((g ++ x) ++ nn) &&& ((0xF#4 ++ 0#4) ++ 0xFF#8) : BitVec ((4 + 4) + 8)) := rfl
  rw [e, BitVec.and_append, BitVec.and_append, BitVec.and_zero]
  have hg : g &&& 0xF#4 = g := BitVec.and_allOnes
  have hn : nn &&& 0xFF#8 = nn := BitVec.and_allOnes
  rw [hg, hn]
  rfl

section
variable (g x y n : BitVec 4) (nn : Byte) (nnn : Addr12)

theorem packNNN_and_F000 : packNNN g nnn &&& 0xF000#16 = packNNN g 0#12 := by
  rw [and_mask_F000, fieldGroup_packNNN]

theorem packXNN_and_F000 : packXNN g x nn &&& 0xF000#16 = packNNN g 0#12 := by
  rw [and_mask_F000, fieldGroup_packXNN]

theorem packXYN_and_F000 : packXYN g x y n &&& 0xF000#16 = packNNN g 0#12 := by
  rw [and_mask_F000, fieldGroup_packXYN]

theorem packXYN_and_F00F : packXYN g x y n &&& 0xF00F#16 = packXYN g 0#4 0#4 n := by
  rw [and_mask_F00F, fieldGroup_packXYN, fieldN_packXYN]

theorem packXNN_and_F0FF : packXNN g x nn &&& 0xF0FF#16 = packXNN g 0#4 nn := by
  rw [and_mask_F0FF, fieldGroup_packXNN, fieldNN_packXNN]

end

end Sys2Proof
end

