-- ==== Sys2Proof/Laws/State.lean ====
section
/-! SUPPORT. One small lemma per field per named update of State, each true by rfl, so that no later proof unfolds an
update. -/

namespace Sys2Proof.Machine

/-! ### setV -/

@[simp] theorem State.setV_mem (s : State) (r : Reg) (b : Byte) : (s.setV r b).mem = s.mem := rfl
@[simp] theorem State.setV_index (s : State) (r : Reg) (b : Byte) : (s.setV r b).index = s.index := rfl
@[simp] theorem State.setV_pc (s : State) (r : Reg) (b : Byte) : (s.setV r b).pc = s.pc := rfl
@[simp] theorem State.setV_stack (s : State) (r : Reg) (b : Byte) : (s.setV r b).stack = s.stack := rfl
@[simp] theorem State.setV_sp (s : State) (r : Reg) (b : Byte) : (s.setV r b).sp = s.sp := rfl
@[simp] theorem State.setV_delayTimer (s : State) (r : Reg) (b : Byte) : (s.setV r b).delayTimer = s.delayTimer := rfl
@[simp] theorem State.setV_soundTimer (s : State) (r : Reg) (b : Byte) : (s.setV r b).soundTimer = s.soundTimer := rfl
@[simp] theorem State.setV_fb (s : State) (r : Reg) (b : Byte) : (s.setV r b).fb = s.fb := rfl
@[simp] theorem State.setV_awaitingKey (s : State) (r : Reg) (b : Byte) : (s.setV r b).awaitingKey = s.awaitingKey := rfl
@[simp] theorem State.setV_keyTarget (s : State) (r : Reg) (b : Byte) : (s.setV r b).keyTarget = s.keyTarget := rfl
@[simp] theorem State.setV_diag (s : State) (r : Reg) (b : Byte) : (s.setV r b).diag = s.diag := rfl
@[simp] theorem State.setV_loadStatus (s : State) (r : Reg) (b : Byte) : (s.setV r b).loadStatus = s.loadStatus := rfl
@[simp] theorem State.setV_keys (s : State) (r : Reg) (b : Byte) : (s.setV r b).keys = s.keys := rfl
@[simp] theorem State.setV_rnd (s : State) (r : Reg) (b : Byte) : (s.setV r b).rnd = s.rnd := rfl
@[simp] theorem State.setV_agenda (s : State) (r : Reg) (b : Byte) : (s.setV r b).agenda = s.agenda := rfl
@[simp] theorem State.setV_clock (s : State) (r : Reg) (b : Byte) : (s.setV r b).clock = s.clock := rfl
@[simp] theorem State.setV_started (s : State) (r : Reg) (b : Byte) : (s.setV r b).started = s.started := rfl
@[simp] theorem State.setV_loaded (s : State) (r : Reg) (b : Byte) : (s.setV r b).loaded = s.loaded := rfl
@[simp] theorem State.setV_font (s : State) (r : Reg) (b : Byte) : (s.setV r b).font = s.font := rfl

/-! ### writeByte -/

@[simp] theorem State.writeByte_v (s : State) (a : Nat) (b : Byte) : (s.writeByte a b).v = s.v := rfl
@[simp] theorem State.writeByte_index (s : State) (a : Nat) (b : Byte) : (s.writeByte a b).index = s.index := rfl
@[simp] theorem State.writeByte_pc (s : State) (a : Nat) (b : Byte) : (s.writeByte a b).pc = s.pc := rfl
@[simp] theorem State.writeByte_stack (s : State) (a : Nat) (b : Byte) : (s.writeByte a b).stack = s.stack := rfl
@[simp] theorem State.writeByte_sp (s : State) (a : Nat) (b : Byte) : (s.writeByte a b).sp = s.sp := rfl
@[simp] theorem State.writeByte_delayTimer (s : State) (a : Nat) (b : Byte) : (s.writeByte a b).delayTimer = s.delayTimer := rfl
@[simp] theorem State.writeByte_soundTimer (s : State) (a : Nat) (b : Byte) : (s.writeByte a b).soundTimer = s.soundTimer := rfl
@[simp] theorem State.writeByte_fb (s : State) (a : Nat) (b : Byte) : (s.writeByte a b).fb = s.fb := rfl
@[simp] theorem State.writeByte_awaitingKey (s : State) (a : Nat) (b : Byte) : (s.writeByte a b).awaitingKey = s.awaitingKey := rfl
@[simp] theorem State.writeByte_keyTarget (s : State) (a : Nat) (b : Byte) : (s.writeByte a b).keyTarget = s.keyTarget := rfl
@[simp] theorem State.writeByte_diag (s : State) (a : Nat) (b : Byte) : (s.writeByte a b).diag = s.diag := rfl
@[simp] theorem State.writeByte_loadStatus (s : State) (a : Nat) (b : Byte) : (s.writeByte a b).loadStatus = s.loadStatus := rfl
@[simp] theorem State.writeByte_keys (s : State) (a : Nat) (b : Byte) : (s.writeByte a b).keys = s.keys := rfl
@[simp] theorem State.writeByte_rnd (s : State) (a : Nat) (b : Byte) : (s.writeByte a b).rnd = s.rnd := rfl
@[simp] theorem State.writeByte_agenda (s : State) (a : Nat) (b : Byte) : (s.writeByte a b).agenda = s.agenda := rfl
@[simp] theorem State.writeByte_clock (s : State) (a : Nat) (b : Byte) : (s.writeByte a b).clock = s.clock := rfl
@[simp] theorem State.writeByte_started (s : State) (a : Nat) (b : Byte) : (s.writeByte a b).started = s.started := rfl
@[simp] theorem State.writeByte_loaded (s : State) (a : Nat) (b : Byte) : (s.writeByte a b).loaded = s.loaded := rfl
@[simp] theorem State.writeByte_font (s : State) (a : Nat) (b : Byte) : (s.writeByte a b).font = s.font := rfl

/-! ### setPc -/

@[simp] theorem State.setPc_mem (s : State) (t : Word) : (s.setPc t).mem = s.mem := rfl
@[simp] theorem State.setPc_v (s : State) (t : Word) : (s.setPc t).v = s.v := rfl
@[simp] theorem State.setPc_index (s : State) (t : Word) : (s.setPc t).index = s.index := rfl
@[simp] theorem State.setPc_stack (s : State) (t : Word) : (s.setPc t).stack = s.stack := rfl
@[simp] theorem State.setPc_sp (s : State) (t : Word) : (s.setPc t).sp = s.sp := rfl
@[simp] theorem State.setPc_delayTimer (s : State) (t : Word) : (s.setPc t).delayTimer = s.delayTimer := rfl
@[simp] theorem State.setPc_soundTimer (s : State) (t : Word) : (s.setPc t).soundTimer = s.soundTimer := rfl
@[simp] theorem State.setPc_fb (s : State) (t : Word) : (s.setPc t).fb = s.fb := rfl
@[simp] theorem State.setPc_awaitingKey (s : State) (t : Word) : (s.setPc t).awaitingKey = s.awaitingKey := rfl
@[simp] theorem State.setPc_keyTarget (s : State) (t : Word) : (s.setPc t).keyTarget = s.keyTarget := rfl
@[simp] theorem State.setPc_diag (s : State) (t : Word) : (s.setPc t).diag = s.diag := rfl
@[simp] theorem State.setPc_loadStatus (s : State) (t : Word) : (s.setPc t).loadStatus = s.loadStatus := rfl
@[simp] theorem State.setPc_keys (s : State) (t : Word) : (s.setPc t).keys = s.keys := rfl
@[simp] theorem State.setPc_rnd (s : State) (t : Word) : (s.setPc t).rnd = s.rnd := rfl
@[simp] theorem State.setPc_agenda (s : State) (t : Word) : (s.setPc t).agenda = s.agenda := rfl
@[simp] theorem State.setPc_clock (s : State) (t : Word) : (s.setPc t).clock = s.clock := rfl
@[simp] theorem State.setPc_started (s : State) (t : Word) : (s.setPc t).started = s.started := rfl
@[simp] theorem State.setPc_loaded (s : State) (t : Word) : (s.setPc t).loaded = s.loaded := rfl
@[simp] theorem State.setPc_font (s : State) (t : Word) : (s.setPc t).font = s.font := rfl

/-! ### signal -/

@[simp] theorem State.signal_mem (s : State) (d : Diag) : (s.signal d).mem = s.mem := rfl
@[simp] theorem State.signal_v (s : State) (d : Diag) : (s.signal d).v = s.v := rfl
@[simp] theorem State.signal_index (s : State) (d : Diag) : (s.signal d).index = s.index := rfl
@[simp] theorem State.signal_pc (s : State) (d : Diag) : (s.signal d).pc = s.pc := rfl
@[simp] theorem State.signal_stack (s : State) (d : Diag) : (s.signal d).stack = s.stack := rfl
@[simp] theorem State.signal_sp (s : State) (d : Diag) : (s.signal d).sp = s.sp := rfl
@[simp] theorem State.signal_delayTimer (s : State) (d : Diag) : (s.signal d).delayTimer = s.delayTimer := rfl
@[simp] theorem State.signal_soundTimer (s : State) (d : Diag) : (s.signal d).soundTimer = s.soundTimer := rfl
@[simp] theorem State.signal_fb (s : State) (d : Diag) : (s.signal d).fb = s.fb := rfl
@[simp] theorem State.signal_awaitingKey (s : State) (d : Diag) : (s.signal d).awaitingKey = s.awaitingKey := rfl
@[simp] theorem State.signal_keyTarget (s : State) (d : Diag) : (s.signal d).keyTarget = s.keyTarget := rfl
@[simp] theorem State.signal_loadStatus (s : State) (d : Diag) : (s.signal d).loadStatus = s.loadStatus := rfl
@[simp] theorem State.signal_keys (s : State) (d : Diag) : (s.signal d).keys = s.keys := rfl
@[simp] theorem State.signal_rnd (s : State) (d : Diag) : (s.signal d).rnd = s.rnd := rfl
@[simp] theorem State.signal_agenda (s : State) (d : Diag) : (s.signal d).agenda = s.agenda := rfl
@[simp] theorem State.signal_clock (s : State) (d : Diag) : (s.signal d).clock = s.clock := rfl
@[simp] theorem State.signal_started (s : State) (d : Diag) : (s.signal d).started = s.started := rfl
@[simp] theorem State.signal_loaded (s : State) (d : Diag) : (s.signal d).loaded = s.loaded := rfl
@[simp] theorem State.signal_font (s : State) (d : Diag) : (s.signal d).font = s.font := rfl

@[simp] theorem State.setPc_pc (s : State) (t : Word) : (s.setPc t).pc = t := rfl
@[simp] theorem State.signal_diag (s : State) (d : Diag) : (s.signal d).diag = d := rfl
@[simp] theorem State.setPc_getV (s : State) (t : Word) (r : Reg) : (s.setPc t).getV r = s.getV r := rfl
@[simp] theorem State.signal_getV (s : State) (d : Diag) (r : Reg) : (s.signal d).getV r = s.getV r := rfl
@[simp] theorem State.writeByte_getV (s : State) (a : Nat) (b : Byte) (r : Reg) :
    (s.writeByte a b).getV r = s.getV r := rfl
@[simp] theorem State.setV_readByte (s : State) (r : Reg) (b : Byte) (a : Nat) :
    (s.setV r b).readByte a = s.readByte a := rfl
@[simp] theorem State.setPc_readByte (s : State) (t : Word) (a : Nat) : (s.setPc t).readByte a = s.readByte a := rfl
@[simp] theorem State.signal_readByte (s : State) (d : Diag) (a : Nat) :
    (s.signal d).readByte a = s.readByte a := rfl

end Sys2Proof.Machine
end

