-- ==== Sys2Proof/Laws/Memory.lean ====
section
/-! SUPPORT. What the memory operations do: a read after a write, other addresses untouched, and the canonical form
kept (20_memory.md R62 to R64, R67). -/

namespace Sys2Proof.Machine

theorem Memory.read_of_not_listed {f : FontTable} {m : Memory} {a : Nat} (h : ∀ c ∈ m, c.1 ≠ a) : m.read f a = Memory.initial f a := by
  induction m with
  | nil => rfl
  | cons c m ih =>
    simp only [Memory.read, if_neg (h c (by simp))]
    exact ih fun d hd => h d (by simp [hd])

theorem Memory.read_filter_ne {f : FontTable} {m : Memory} {a b : Nat} (h : b ≠ a) :
    Memory.read f (m.filter (fun c => c.1 != a)) b = m.read f b := by
  induction m with
  | nil => rfl
  | cons c m ih =>
    by_cases hc : c.1 = a
    · rw [List.filter_cons_of_neg (by simp [hc]), ih, Memory.read, if_neg (by rw [hc]; exact h.symm)]
    · rw [List.filter_cons_of_pos (by simp [hc]), Memory.read, Memory.read, ih]

theorem Memory.read_insert_same {f : FontTable} {m : Memory} {a : Nat} {b : Byte} (h : ∀ c ∈ m, c.1 ≠ a) :
    Memory.read f (Memory.insert a b m) a = b := by
  induction m with
  | nil => simp [Memory.insert, Memory.read]
  | cons c m ih =>
    unfold Memory.insert
    split
    · simp [Memory.read]
    · simp [Memory.read, h c (by simp), ih fun d hd => h d (by simp [hd])]

theorem Memory.read_insert_ne {f : FontTable} {m : Memory} {a a' : Nat} {b : Byte} (h : a' ≠ a) :
    Memory.read f (Memory.insert a b m) a' = m.read f a' := by
  induction m with
  | nil => simp [Memory.insert, Memory.read, h.symm]
  | cons c m ih =>
    unfold Memory.insert
    split <;> simp [Memory.read, h.symm, ih]

/-- The byte written is the byte read back, in every memory. -/
theorem Memory.read_write_same (f : FontTable) (m : Memory) (a : Nat) (b : Byte) : (m.write f a b).read f a = b := by
  have hne : ∀ c ∈ m.filter (fun c => c.1 != a), c.1 ≠ a := by simp
  unfold Memory.write
  split
  · rename_i hb
    rw [Memory.read_of_not_listed hne, hb]
  · exact Memory.read_insert_same hne

/-- A write leaves every other address alone, in every memory. -/
theorem Memory.read_write_ne (f : FontTable) (m : Memory) {a a' : Nat} (b : Byte) (h : a' ≠ a) :
    (m.write f a b).read f a' = m.read f a' := by
  unfold Memory.write
  split
  · exact Memory.read_filter_ne h
  · rw [Memory.read_insert_ne h, Memory.read_filter_ne h]

theorem Memory.mem_insert {m : Memory} {a : Nat} {b : Byte} {c : Host.Cell} :
    c ∈ Memory.insert a b m ↔ c = (a, b) ∨ c ∈ m := by
  induction m with
  | nil => simp [Memory.insert]
  | cons d m ih =>
    unfold Memory.insert
    split <;> simp [ih, or_left_comm]

theorem Memory.sorted_insert {m : Memory} {a : Nat} {b : Byte} (hs : m.Pairwise (fun c d => c.1 < d.1))
    (hne : ∀ c ∈ m, c.1 ≠ a) : (Memory.insert a b m).Pairwise (fun c d => c.1 < d.1) := by
  induction m with
  | nil => simp [Memory.insert]
  | cons d m ih =>
    have hd := List.pairwise_cons.1 hs
    unfold Memory.insert
    split
    · rename_i had
      refine List.pairwise_cons.2 ⟨fun c hc => ?_, hs⟩
      rcases List.mem_cons.1 hc with rfl | hc
      · exact had
      · exact had.trans (hd.1 c hc)
    · rename_i had
      refine List.pairwise_cons.2 ⟨fun c hc => ?_, ih hd.2 fun c hc => hne c (by simp [hc])⟩
      rcases Memory.mem_insert.1 hc with rfl | hc
      · have := hne d (by simp)
        show d.1 < a
        omega
      · exact hd.1 c hc

/-- A write keeps the canonical form. -/
theorem Memory.wf_write {f : FontTable} {m : Memory} (h : m.wf f) {a : Nat} (ha : a < 4096) (b : Byte) : (m.write f a b).wf f := by
  have hf : Memory.wf f (m.filter (fun c => c.1 != a)) :=
    ⟨h.1.filter _, fun c hc => h.2 c (List.mem_filter.1 hc).1⟩
  have hne : ∀ c ∈ m.filter (fun c => c.1 != a), c.1 ≠ a := by simp
  unfold Memory.write
  split
  · exact hf
  · rename_i hb
    refine ⟨Memory.sorted_insert hf.1 hne, fun c hc => ?_⟩
    rcases Memory.mem_insert.1 hc with rfl | hc
    · exact ⟨ha, hb⟩
    · exact hf.2 c hc

/-- Reading a byte after a store of one byte (R63, R64): addresses meet modulo 4096. -/
theorem State.readByte_writeByte (s : State) (a a' : Nat) (b : Byte) :
    (s.writeByte a b).readByte a' = if a' % 4096 = a % 4096 then b else s.readByte a' := by
  unfold State.readByte State.writeByte
  split
  · rename_i h
    rw [h]
    exact Memory.read_write_same _ _ _ _
  · rename_i h
    exact Memory.read_write_ne _ _ _ h

theorem State.readByte_mod (s : State) (a : Nat) : s.readByte (a % 4096) = s.readByte a := by
  simp [State.readByte]

theorem State.writeByte_wf {s : State} (h : s.mem.wf s.font) (a : Nat) (b : Byte) : (s.writeByte a b).mem.wf s.font :=
  Memory.wf_write h (Nat.mod_lt _ (by decide)) b

/-- A sequence of stores keeps the canonical form. -/
theorem State.storeBytes_wf {s : State} (h : s.mem.wf s.font) (a : Nat) (bs : List Byte) : (s.storeBytes a bs).mem.wf s.font := by
  induction bs generalizing s a with
  | nil => exact h
  | cons b bs ih => exact ih (State.writeByte_wf h a b) _

/-- A sequence of stores changes memory alone. -/
theorem State.storeBytes_eq (s : State) (a : Nat) (bs : List Byte) :
    s.storeBytes a bs = { s with mem := (s.storeBytes a bs).mem } := by
  induction bs generalizing s a with
  | nil => rfl
  | cons b bs ih => exact ih (s.writeByte a b) (a + 1)

@[simp] theorem State.storeBytes_font (s : State) (a : Nat) (bs : List Byte) : (s.storeBytes a bs).font = s.font := by
  rw [State.storeBytes_eq]

theorem State.readByte_storeBytes_outside (s : State) (a a' : Nat) (bs : List Byte)
    (h : ∀ k < bs.length, a' % 4096 ≠ (a + k) % 4096) : (s.storeBytes a bs).readByte a' = s.readByte a' := by
  induction bs generalizing s a with
  | nil => rfl
  | cons b bs ih =>
    have h0 := h 0 (by simp)
    rw [State.storeBytes, ih, State.readByte_writeByte, if_neg (by simpa using h0)]
    intro k hk
    have := h (k + 1) (by simpa using hk)
    rwa [Nat.add_assoc, Nat.add_comm 1 k]

/-- What a sequence of at most 4096 stores leaves: byte `k` at `a + k` modulo 4096, and every other address as it was
(R67: no two of an instruction's accesses meet). -/
theorem State.readByte_storeBytes (s : State) (a k : Nat) (bs : List Byte) (hk : k < bs.length)
    (hl : bs.length ≤ 4096) : (s.storeBytes a bs).readByte (a + k) = bs[k] := by
  induction bs generalizing s a k with
  | nil => simp at hk
  | cons b bs ih =>
    rw [State.storeBytes]
    cases k with
    | zero =>
      rw [State.readByte_storeBytes_outside, State.readByte_writeByte]
      · simp
      · intro j hj
        simp at hl
        omega
    | succ k =>
      have := ih (s.writeByte a b) (a + 1) k (by simpa using hk) (by simp at hl; omega)
      rw [Nat.add_right_comm] at this
      simpa [Nat.add_assoc, Nat.add_comm 1 k] using this

@[simp] theorem State.readBytes_length (s : State) (a len : Nat) : (s.readBytes a len).length = len := by
  simp [State.readBytes]

end Sys2Proof.Machine
end

