-- ==== Sys2Proof/Laws/Registers.lean ====
section
/-! SUPPORT. What the register, stack and control operations do (10_state.md R20, R25; 41_control_flow.md R140). -/

namespace Sys2Proof.Machine

/-- A register reads as what was last written to it, and every other register as before (R20). -/
theorem State.getV_setV (s : State) (r q : Reg) (b : Byte) : (s.setV r b).getV q = if q = r then b else s.getV q := by
  unfold State.getV State.setV
  by_cases h : q = r
  · subst h; simp
  · have : r.toNat ≠ q.toNat := fun e => h (BitVec.eq_of_toNat_eq e.symm)
    simp [h, Vector.getElem_set_ne _ _ this]

@[simp] theorem State.getV_setV_same (s : State) (r : Reg) (b : Byte) : (s.setV r b).getV r = b := by
  simp [State.getV_setV]

/-- Two states with the same registers hold the same vector. -/
theorem State.v_ext {s t : State} (h : ∀ r, t.getV r = s.getV r) : t.v = s.v := by
  ext k hk : 1
  have := h (BitVec.ofNat 4 k)
  simpa [State.getV, Nat.mod_eq_of_lt hk] using this

/-- Everything a skip can do (R140). -/
theorem State.skipIf_eq (s : State) (c : Bool) : s.skipIf c = { s with pc := if c then s.pc + 2 else s.pc } := by
  cases c <;> rfl

/-- Everything a push can do: it fails exactly on a full stack (R25). -/
theorem State.push_cases (s : State) (a : Word) :
    (s.sp = 16 ∧ s.push a = none) ∨
    ∃ h : s.sp.val < 16, s.push a =
      some { s with stack := s.stack.set s.sp.val a h, sp := ⟨s.sp.val + 1, Nat.succ_lt_succ h⟩ } := by
  by_cases h : s.sp.val < 16
  · exact .inr ⟨h, by simp [State.push, h]⟩
  · exact .inl ⟨by have := s.sp.isLt; apply Fin.ext; show s.sp.val = 16; omega, by simp [State.push, h]⟩

/-- Everything a pop can do: it fails exactly on an empty stack (R25). -/
theorem State.pop_cases (s : State) :
    (s.sp = 0 ∧ s.pop = none) ∨
    ∃ (_ : 0 < s.sp.val) (hk : s.sp.val - 1 < 16), s.pop =
      some (s.stack[s.sp.val - 1], { s with sp := ⟨s.sp.val - 1, Nat.lt_succ_of_lt hk⟩ }) := by
  by_cases h : 0 < s.sp.val
  · exact .inr ⟨h, by have := s.sp.isLt; omega, by simp [State.pop, State.stackAt, h]⟩
  · exact .inl ⟨by apply Fin.ext; show s.sp.val = 0; omega, by simp [State.pop, h]⟩

/-- Loading registers one after the other changes registers alone. -/
theorem State.loadV_eq (s : State) (k : Nat) (bs : List Byte) : s.loadV k bs = { s with v := (s.loadV k bs).v } := by
  induction bs generalizing s k with
  | nil => rfl
  | cons b bs ih => exact ih (s.setV _ b) (k + 1)

@[simp] theorem State.loadV_font (s : State) (k : Nat) (bs : List Byte) : (s.loadV k bs).font = s.font := by
  rw [State.loadV_eq]

/-- What loading registers `k`, `k+1`, ... leaves in each register (R186). -/
theorem State.getV_loadV (s : State) (k : Nat) (bs : List Byte) (h : k + bs.length ≤ 16) (r : Reg) :
    (s.loadV k bs).getV r = if hr : k ≤ r.toNat ∧ r.toNat < k + bs.length then bs[r.toNat - k] else s.getV r := by
  induction bs generalizing s k with
  | nil => rw [dif_neg (by simp)]; rfl
  | cons b bs ih =>
    simp only [List.length_cons] at h
    rw [State.loadV, ih _ _ (by omega), State.getV_setV]
    by_cases hk : r.toNat = k
    · have : r = BitVec.ofNat 4 k := by apply BitVec.eq_of_toNat_eq; simp [hk]; omega
      rw [dif_neg (by omega), if_pos this, dif_pos (by simp; omega)]
      simp [hk]
    · have : r ≠ BitVec.ofNat 4 k := fun e => hk (by rw [e]; simp; omega)
      by_cases hr : k + 1 ≤ r.toNat ∧ r.toNat < k + 1 + bs.length
      · have e : r.toNat - k = (r.toNat - (k + 1)) + 1 := by omega
        rw [dif_pos hr, dif_pos (by simp; omega)]
        simp only [e, List.getElem_cons_succ]
      · rw [dif_neg hr, if_neg this, dif_neg (by simp; omega)]

@[simp] theorem State.regsUpTo_length (s : State) (x : Reg) : (s.regsUpTo x).length = x.toNat + 1 := by
  simp [State.regsUpTo]

/-- The lowest pressed key is none exactly when no key is pressed (R221). -/
theorem lowestKey_eq_none {keys : Keys} : lowestKey keys = none ↔ keys = 0#16 := by
  constructor
  · intro h
    have h' := List.find?_eq_none.1 h
    ext i hi
    have := h' i (by simpa using hi)
    simpa [BitVec.getLsbD_eq_getElem hi] using this
  · rintro rfl
    simp [lowestKey]

/-- What the lowest pressed key is (R221). -/
theorem lowestKey_eq_some {keys : Keys} {k : Nat} :
    lowestKey keys = some k ↔ k < 16 ∧ keys.getLsbD k = true ∧ ∀ j < k, keys.getLsbD j = false := by
  unfold lowestKey
  rw [List.find?_range_eq_some]
  constructor
  · rintro ⟨h1, h2, h3⟩
    exact ⟨by simpa using h2, h1, fun j hj => by simpa using h3 j hj⟩
  · rintro ⟨h1, h2, h3⟩
    exact ⟨h2, by simpa using h1, fun j hj => by simpa using h3 j hj⟩

end Sys2Proof.Machine
end

