-- ==== Sys2Proof/Laws/Display.lean ====
section
/-! SUPPORT. What the Display Unit's operations do to one cell and to the collision flag (44_display.md R201). -/

namespace Sys2Proof.Machine

theorem FrameBuffer.cell_of_lt (fb : FrameBuffer) {x y : Nat} (hx : x < 64) (hy : y < 32) :
    fb.cell x y = (fb[y])[x] := by
  simp [FrameBuffer.cell, hx, hy]

/-- Two framebuffers with the same cells are the same. -/
theorem FrameBuffer.ext_cell {a b : FrameBuffer} (h : ∀ x < 64, ∀ y < 32, a.cell x y = b.cell x y) : a = b := by
  apply Vector.ext
  intro y hy
  apply Vector.ext
  intro x hx
  have := h x hx y hy
  rwa [FrameBuffer.cell_of_lt _ hx hy, FrameBuffer.cell_of_lt _ hx hy] at this

theorem FrameBuffer.cell_blank (x y : Nat) : FrameBuffer.blank.cell x y = false := by
  unfold FrameBuffer.cell
  split
  · simp [FrameBuffer.blank]
  · rfl

/-- A plotted pixel inverts its own cell if it is on screen, and no other; the flag rises if that cell was on. -/
theorem plotPixel_cell (c : Canvas) (tx ty : Nat) {x y : Nat} (hx : x < 64) (hy : y < 32) :
    (plotPixel c tx ty).1.cell x y = (c.1.cell x y != decide (x = tx ∧ y = ty)) := by
  unfold plotPixel
  split
  · rename_i h
    rw [FrameBuffer.cell_of_lt _ hx hy, FrameBuffer.cell_of_lt _ hx hy]
    by_cases hyt : ty = y
    · subst hyt
      by_cases hxt : tx = x
      · subst hxt; simp
      · simp [Vector.getElem_set_ne _ _ hxt, Ne.symm hxt]
    · simp [Vector.getElem_set_ne _ _ hyt, Ne.symm hyt]
  · rename_i h
    have : ¬ (x = tx ∧ y = ty) := by omega
    simp [this]

theorem plotPixel_flag (c : Canvas) (tx ty : Nat) : (plotPixel c tx ty).2 = (c.2 || c.1.cell tx ty) := by
  unfold plotPixel FrameBuffer.cell
  by_cases h : tx ≤ 63 ∧ ty ≤ 31
  · have h' : tx < 64 ∧ ty < 32 := by omega
    rw [dif_pos h, dif_pos h']
  · have h' : ¬ (tx < 64 ∧ ty < 32) := by omega
    rw [dif_neg h, dif_neg h', Bool.or_false]

/-- The bits a row of a sprite sets, by cell: bit `7 - (x - x0)` of the byte at the eight cells from `x0` (R201). -/
def rowBit (x0 ty : Nat) (byte : Byte) (x y : Nat) : Bool :=
  decide (y = ty ∧ x0 ≤ x ∧ x < x0 + 8) && byte.getLsbD (7 - (x - x0))

/-- The first `k` columns of a row, as far as the fold has come. -/
theorem plotRow_prefix (c : Canvas) (x0 ty : Nat) (byte : Byte) (k : Nat) (hk : k ≤ 8) :
    let d := (List.range k).foldl (fun c j => if byte.getLsbD (7 - j) then plotPixel c (x0 + j) ty else c) c
    (∀ x < 64, ∀ y < 32, d.1.cell x y = (c.1.cell x y != (rowBit x0 ty byte x y && decide (x < x0 + k)))) ∧
    (d.2 = true ↔ c.2 = true ∨ ∃ x < 64, ∃ y < 32, rowBit x0 ty byte x y = true ∧ x < x0 + k ∧ c.1.cell x y = true) := by
  induction k with
  | zero =>
    refine ⟨fun x _ y _ => ?_, ?_⟩
    · have : (rowBit x0 ty byte x y && decide (x < x0 + 0)) = false := by
        by_cases h : x < x0 + 0
        · have h' : ¬ (y = ty ∧ x0 ≤ x ∧ x < x0 + 8) := by omega
          simp [rowBit, h']
        · simp only [h, decide_false, Bool.and_false]
      rw [this]
      simp
    · refine ⟨.inl, ?_⟩
      rintro (h | ⟨x, _, y, _, hb, hlt, _⟩)
      · exact h
      · simp only [rowBit, Bool.and_eq_true, decide_eq_true_eq] at hb
        omega
  | succ k ih =>
    obtain ⟨ihc, ihf⟩ := ih (by omega)
    rw [List.range_succ, List.foldl_append, List.foldl_cons, List.foldl_nil]
    generalize (List.range k).foldl (fun c j => if byte.getLsbD (7 - j) then plotPixel c (x0 + j) ty else c) c = d at *
    have hlast : ∀ x y, (rowBit x0 ty byte x y && decide (x < x0 + (k + 1))) =
        ((rowBit x0 ty byte x y && decide (x < x0 + k)) != (byte.getLsbD (7 - k) && decide (x = x0 + k ∧ y = ty))) := by
      intro x y
      by_cases hx : x = x0 + k
      · subst hx
        by_cases hy : y = ty
        · subst hy
          have : x0 + k < x0 + 8 := by omega
          simp [rowBit, this]
        · simp [rowBit, hy]
      · have : (x < x0 + (k + 1)) ↔ (x < x0 + k) := by omega
        simp [hx, this]
    have hcov : rowBit x0 ty byte (x0 + k) ty = byte.getLsbD (7 - k) := by
      have : x0 + k < x0 + 8 := by omega
      simp [rowBit, this]
    by_cases hb : byte.getLsbD (7 - k) = true
    · rw [if_pos hb]
      refine ⟨fun x hx y hy => ?_, ?_⟩
      · rw [plotPixel_cell _ _ _ hx hy, ihc x hx y hy, hlast, hb]
        simp
      · rw [plotPixel_flag, Bool.or_eq_true, ihf]
        constructor
        · rintro ((h | ⟨x, hx, y, hy, h1, h2, h3⟩) | h)
          · exact .inl h
          · exact .inr ⟨x, hx, y, hy, h1, by omega, h3⟩
          · have hon : x0 + k < 64 ∧ ty < 32 := by
              by_contra hn
              simp [FrameBuffer.cell, hn] at h
            rw [ihc _ hon.1 _ hon.2] at h
            exact .inr ⟨x0 + k, hon.1, ty, hon.2, by rw [hcov, hb], by omega, by simpa using h⟩
        · rintro (h | ⟨x, hx, y, hy, h1, h2, h3⟩)
          · exact .inl (.inl h)
          · by_cases hxk : x < x0 + k
            · exact .inl (.inr ⟨x, hx, y, hy, h1, hxk, h3⟩)
            · have hy' : y = ty := by
                simp only [rowBit, Bool.and_eq_true, decide_eq_true_eq] at h1
                exact h1.1.1
              have hx' : x = x0 + k := by omega
              subst hx' hy'
              refine .inr ?_
              rw [ihc _ hx _ hy, h3]
              simp
    · rw [if_neg hb]
      simp only [Bool.not_eq_true] at hb
      refine ⟨fun x hx y hy => ?_, ?_⟩
      · rw [ihc x hx y hy, hlast, hb]
        simp
      · rw [ihf]
        refine or_congr Iff.rfl ⟨?_, ?_⟩
        · rintro ⟨x, hx, y, hy, h1, h2, h3⟩
          exact ⟨x, hx, y, hy, h1, by omega, h3⟩
        · rintro ⟨x, hx, y, hy, h1, h2, h3⟩
          refine ⟨x, hx, y, hy, h1, ?_, h3⟩
          by_contra hn
          have hy' : y = ty := by
            simp only [rowBit, Bool.and_eq_true, decide_eq_true_eq] at h1
            exact h1.1.1
          have hx' : x = x0 + k := by omega
          rw [hx', hy', hcov, hb] at h1
          exact absurd h1 (by decide)

/-- A row inverts the on-screen cells its set bits fall on; the flag rises if one of them was on (R201). -/
theorem plotRow_cell (c : Canvas) (x0 ty : Nat) (byte : Byte) {x y : Nat} (hx : x < 64) (hy : y < 32) :
    (plotRow c x0 ty byte).1.cell x y = (c.1.cell x y != rowBit x0 ty byte x y) := by
  have h := (plotRow_prefix c x0 ty byte 8 (by omega)).1 x hx y hy
  have hb : (rowBit x0 ty byte x y && decide (x < x0 + 8)) = rowBit x0 ty byte x y := by
    unfold rowBit
    by_cases h8 : x < x0 + 8 <;> simp [h8]
  rw [hb] at h
  exact h

theorem plotRow_flag (c : Canvas) (x0 ty : Nat) (byte : Byte) :
    (plotRow c x0 ty byte).2 = true ↔
      c.2 = true ∨ ∃ x < 64, ∃ y < 32, rowBit x0 ty byte x y = true ∧ c.1.cell x y = true := by
  refine (plotRow_prefix c x0 ty byte 8 (by omega)).2.trans (or_congr Iff.rfl ⟨?_, ?_⟩)
  · rintro ⟨x, hx, y, hy, h1, _, h3⟩
    exact ⟨x, hx, y, hy, h1, h3⟩
  · rintro ⟨x, hx, y, hy, h1, h3⟩
    refine ⟨x, hx, y, hy, h1, ?_, h3⟩
    simp only [rowBit, Bool.and_eq_true, decide_eq_true_eq] at h1
    omega

/-- The set bit of a sprite on a cell, the sprite's first row at `ty`: row `y - ty` of the sprite has it (R201). -/
def spriteBit (x0 ty : Nat) (sprite : List Byte) (x y : Nat) : Bool :=
  decide (x0 ≤ x ∧ x < x0 + 8 ∧ ty ≤ y) && (sprite.getD (y - ty) 0#8).getLsbD (7 - (x - x0))

theorem spriteBit_cons (x0 ty : Nat) (b : Byte) (bs : List Byte) (x y : Nat) :
    spriteBit x0 ty (b :: bs) x y = (rowBit x0 ty b x y != spriteBit x0 (ty + 1) bs x y) := by
  unfold spriteBit rowBit
  by_cases hy : y = ty
  · subst hy
    have : ¬ (y + 1 ≤ y) := by omega
    simp [this]
  · by_cases hlt : ty ≤ y
    · have e : y - ty = (y - (ty + 1)) + 1 := by omega
      have h1 : ty + 1 ≤ y := by omega
      simp [hy, hlt, h1, e]
    · have h1 : ¬ (ty + 1 ≤ y) := by omega
      simp [hy, hlt, h1]

/-- Everything a draw can do (R201): it inverts the on-screen cells the sprite's set bits fall on, and the flag rises if
one of them was on. -/
theorem plotRows_spec (c : Canvas) (x0 ty : Nat) (sprite : List Byte) :
    (∀ x < 64, ∀ y < 32, (plotRows c x0 ty sprite).1.cell x y = (c.1.cell x y != spriteBit x0 ty sprite x y)) ∧
    ((plotRows c x0 ty sprite).2 = true ↔
      c.2 = true ∨ ∃ x < 64, ∃ y < 32, spriteBit x0 ty sprite x y = true ∧ c.1.cell x y = true) := by
  induction sprite generalizing c ty with
  | nil => simp [plotRows, spriteBit]
  | cons b bs ih =>
    obtain ⟨ihc, ihf⟩ := ih (plotRow c x0 ty b) (ty + 1)
    refine ⟨fun x hx y hy => ?_, ?_⟩
    · rw [plotRows, ihc x hx y hy, plotRow_cell _ _ _ _ hx hy, spriteBit_cons]
      simp
    · have hdis : ∀ x y, rowBit x0 ty b x y = true → spriteBit x0 (ty + 1) bs x y = false := by
        intro x y h
        simp only [rowBit, Bool.and_eq_true, decide_eq_true_eq] at h
        have : ¬ (ty + 1 ≤ y) := by omega
        simp [spriteBit, this]
      rw [plotRows, ihf, plotRow_flag, or_assoc]
      refine or_congr Iff.rfl ⟨?_, ?_⟩
      · rintro (⟨x, hx, y, hy, h1, h2⟩ | ⟨x, hx, y, hy, h1, h2⟩)
        · exact ⟨x, hx, y, hy, by rw [spriteBit_cons, h1, hdis x y h1]; rfl, h2⟩
        · rw [plotRow_cell _ _ _ _ hx hy] at h2
          by_cases hr : rowBit x0 ty b x y = true
          · rw [hdis x y hr] at h1
            exact absurd h1 (by decide)
          · simp only [Bool.not_eq_true] at hr
            rw [hr] at h2
            exact ⟨x, hx, y, hy, by rw [spriteBit_cons, h1, hr]; rfl, by simpa using h2⟩
      · rintro ⟨x, hx, y, hy, h1, h2⟩
        rw [spriteBit_cons] at h1
        by_cases hr : rowBit x0 ty b x y = true
        · exact .inl ⟨x, hx, y, hy, hr, h2⟩
        · simp only [Bool.not_eq_true] at hr
          rw [hr] at h1
          refine .inr ⟨x, hx, y, hy, by simpa using h1, ?_⟩
          rw [plotRow_cell _ _ _ _ hx hy, h2, hr]
          rfl

/-- The draw of DXYN, whose flag starts at 0. -/
theorem drawSprite_spec (fb : FrameBuffer) (x0 y0 : Nat) (sprite : List Byte) :
    (∀ x < 64, ∀ y < 32, (drawSprite fb x0 y0 sprite).1.cell x y = (fb.cell x y != spriteBit x0 y0 sprite x y)) ∧
    ((drawSprite fb x0 y0 sprite).2 = true ↔
      ∃ x < 64, ∃ y < 32, spriteBit x0 y0 sprite x y = true ∧ fb.cell x y = true) := by
  have h := plotRows_spec (fb, false) x0 y0 sprite
  exact ⟨h.1, h.2.trans (by simp)⟩

end Sys2Proof.Machine
end

