-- ==== Sys2Proof/Laws/PerInstr.lean ====
section
/-! SUPPORT. Statements made per instruction, about the instruction as syntax. -/

namespace Sys2Proof.Laws

/-- The group nibble of each instruction's encoding, as the patterns of the opcode table begin (30_encoding.md R95); the
default row carries its own word. -/
def groupOf : Instr → BitVec 4
  | .cls | .ret => 0x0
  | .jp _ => 0x1
  | .call _ => 0x2
  | .seImm _ _ => 0x3
  | .sneImm _ _ => 0x4
  | .seReg _ _ => 0x5
  | .ldImm _ _ => 0x6
  | .addImm _ _ => 0x7
  | .ldReg _ _ | .orReg _ _ | .andReg _ _ | .xorReg _ _ => 0x8
  | .addReg _ _ | .subReg _ _ | .shr _ _ | .subnReg _ _ | .shl _ _ => 0x8
  | .sneReg _ _ => 0x9
  | .ldIndex _ => 0xA
  | .jpV0 _ => 0xB
  | .rnd _ _ => 0xC
  | .drw _ _ _ => 0xD
  | .skp _ | .sknp _ => 0xE
  | .ldFromDelay _ | .waitKey _ | .ldDelay _ | .ldSound _ => 0xF
  | .addIndex _ | .ldGlyph _ | .bcd _ | .storeRegs _ | .loadRegs _ => 0xF
  | .unknown w => fieldGroup w

/-- The family: the first nibble of an instruction's word is its group (R91, R95). -/
def GroupNibble.Statement (i : Instr) : Prop := fieldGroup (encode i) = groupOf i

theorem GroupNibble.cls : GroupNibble.Statement .cls := by unfold GroupNibble.Statement; decide
theorem GroupNibble.ret : GroupNibble.Statement .ret := by unfold GroupNibble.Statement; decide
theorem GroupNibble.jp (nnn : Addr12) : GroupNibble.Statement (.jp nnn) := fieldGroup_packNNN _ _
theorem GroupNibble.call (nnn : Addr12) : GroupNibble.Statement (.call nnn) := fieldGroup_packNNN _ _
theorem GroupNibble.seImm (x : Reg) (nn : Byte) : GroupNibble.Statement (.seImm x nn) := fieldGroup_packXNN _ _ _
theorem GroupNibble.sneImm (x : Reg) (nn : Byte) : GroupNibble.Statement (.sneImm x nn) := fieldGroup_packXNN _ _ _
theorem GroupNibble.seReg (x : Reg) (y : Reg) : GroupNibble.Statement (.seReg x y) := fieldGroup_packXYN _ _ _ _
theorem GroupNibble.ldImm (x : Reg) (nn : Byte) : GroupNibble.Statement (.ldImm x nn) := fieldGroup_packXNN _ _ _
theorem GroupNibble.addImm (x : Reg) (nn : Byte) : GroupNibble.Statement (.addImm x nn) := fieldGroup_packXNN _ _ _
theorem GroupNibble.ldReg (x : Reg) (y : Reg) : GroupNibble.Statement (.ldReg x y) := fieldGroup_packXYN _ _ _ _
theorem GroupNibble.orReg (x : Reg) (y : Reg) : GroupNibble.Statement (.orReg x y) := fieldGroup_packXYN _ _ _ _
theorem GroupNibble.andReg (x : Reg) (y : Reg) : GroupNibble.Statement (.andReg x y) := fieldGroup_packXYN _ _ _ _
theorem GroupNibble.xorReg (x : Reg) (y : Reg) : GroupNibble.Statement (.xorReg x y) := fieldGroup_packXYN _ _ _ _
theorem GroupNibble.addReg (x : Reg) (y : Reg) : GroupNibble.Statement (.addReg x y) := fieldGroup_packXYN _ _ _ _
theorem GroupNibble.subReg (x : Reg) (y : Reg) : GroupNibble.Statement (.subReg x y) := fieldGroup_packXYN _ _ _ _
theorem GroupNibble.shr (x : Reg) (y : Reg) : GroupNibble.Statement (.shr x y) := fieldGroup_packXYN _ _ _ _
theorem GroupNibble.subnReg (x : Reg) (y : Reg) : GroupNibble.Statement (.subnReg x y) := fieldGroup_packXYN _ _ _ _
theorem GroupNibble.shl (x : Reg) (y : Reg) : GroupNibble.Statement (.shl x y) := fieldGroup_packXYN _ _ _ _
theorem GroupNibble.sneReg (x : Reg) (y : Reg) : GroupNibble.Statement (.sneReg x y) := fieldGroup_packXYN _ _ _ _
theorem GroupNibble.ldIndex (nnn : Addr12) : GroupNibble.Statement (.ldIndex nnn) := fieldGroup_packNNN _ _
theorem GroupNibble.jpV0 (nnn : Addr12) : GroupNibble.Statement (.jpV0 nnn) := fieldGroup_packNNN _ _
theorem GroupNibble.rnd (x : Reg) (nn : Byte) : GroupNibble.Statement (.rnd x nn) := fieldGroup_packXNN _ _ _
theorem GroupNibble.drw (x : Reg) (y : Reg) (n : BitVec 4) : GroupNibble.Statement (.drw x y n) := fieldGroup_packXYN _ _ _ _
theorem GroupNibble.skp (x : Reg) : GroupNibble.Statement (.skp x) := fieldGroup_packXNN _ _ _
theorem GroupNibble.sknp (x : Reg) : GroupNibble.Statement (.sknp x) := fieldGroup_packXNN _ _ _
theorem GroupNibble.ldFromDelay (x : Reg) : GroupNibble.Statement (.ldFromDelay x) := fieldGroup_packXNN _ _ _
theorem GroupNibble.waitKey (x : Reg) : GroupNibble.Statement (.waitKey x) := fieldGroup_packXNN _ _ _
theorem GroupNibble.ldDelay (x : Reg) : GroupNibble.Statement (.ldDelay x) := fieldGroup_packXNN _ _ _
theorem GroupNibble.ldSound (x : Reg) : GroupNibble.Statement (.ldSound x) := fieldGroup_packXNN _ _ _
theorem GroupNibble.addIndex (x : Reg) : GroupNibble.Statement (.addIndex x) := fieldGroup_packXNN _ _ _
theorem GroupNibble.ldGlyph (x : Reg) : GroupNibble.Statement (.ldGlyph x) := fieldGroup_packXNN _ _ _
theorem GroupNibble.bcd (x : Reg) : GroupNibble.Statement (.bcd x) := fieldGroup_packXNN _ _ _
theorem GroupNibble.storeRegs (x : Reg) : GroupNibble.Statement (.storeRegs x) := fieldGroup_packXNN _ _ _
theorem GroupNibble.loadRegs (x : Reg) : GroupNibble.Statement (.loadRegs x) := fieldGroup_packXNN _ _ _
theorem GroupNibble.unknown (w : Word) : GroupNibble.Statement (.unknown w) := rfl

end Sys2Proof.Laws
end

