-- ==== Sys2Proof/Laws/Step.lean ====
section
/-! SUPPORT. What one event can do, said once: an inversion of step, and what exec never touches. -/

namespace Sys2Proof.Machine

/-- On a running machine a step and a tick are in order (R276). -/
theorem State.bootBreach_running {s : State} (h : s.running) (keys : Keys) (rnd : Byte) :
    s.bootBreach (.step keys rnd) = none ∧ s.bootBreach .tick = none := by
  simp [State.bootBreach, h.1, h.2]

/-- The one load of a run is in order (R276). -/
theorem State.bootBreach_load {s : State} (h : s.loaded = false) (h' : s.started = false) (bytes : List Byte) :
    s.bootBreach (.load bytes) = none := by
  simp [State.bootBreach, h, h']

/-- An event in order is performed. -/
theorem perform_of_inOrder {e : HostEvent} {s : State} (h : s.bootBreach e = none) :
    perform e s = match (generalizing := false) e with
      | .reset => .next s.performReset
      | .load bytes => .next (s.load bytes)
      | .tick => .next s.tick
      | .step keys rnd => exec (decode s.fetchWord) (s.beginStep keys rnd) := by
  cases e <;> simp only [perform, h]

/-- An event that answers a next state was in order. -/
theorem inOrder_of_perform {e : HostEvent} {s t : State} (h : perform e s = .next t) : s.bootBreach e = none := by
  unfold perform at h
  split at h
  · cases h
  · assumption

/-- A step or a tick in order happens on a running machine, and a load in order is the first of its run (R276). -/
theorem running_of_inOrder {e : HostEvent} {s : State} (h : s.bootBreach e = none) :
    match e with
    | .reset => True
    | .load _ => s.loaded = false ∧ s.started = false
    | .tick | .step _ _ => s.running := by
  cases e with
  | reset => trivial
  | load bytes =>
    unfold State.bootBreach at h
    cases hl : s.loaded <;> cases hs : s.started <;> simp [hl, hs] at h ⊢
  | tick => simpa [State.bootBreach, State.running] using h
  | step keys rnd =>
    unfold State.bootBreach at h
    cases hl : s.loaded <;> cases hs : s.loadStatus <;> simp [hl, hs, State.running] at h ⊢

/-- Everything an event that answers a next state can have been (R11, R33, R276): a step or a tick of a running machine, a
reset, or the load of this run. -/
theorem step_cases {s t : State} (h : step s = .next t) :
    (∃ keys rnd rest, s.stepsWith keys rnd rest ∧ s.takeEvent.1 = .step keys rnd ∧
      exec (decode s.fetchWord) (s.inStep keys rnd rest) = .next t) ∨
    (∃ rest, s.agenda = .tick :: rest ∧ s.running ∧ t = State.tick { s with agenda := rest, clock := s.clock + 1 }) ∨
    (∃ rest, s.agenda = .reset :: rest ∧
      t = { State.resetWith s.font with agenda := rest, clock := s.clock + 1 }) ∨
    (∃ bytes rest, s.loadsWith bytes rest ∧ s.takeEvent.1 = .load bytes ∧
      t = State.load { s with agenda := rest, clock := s.clock + 1 } bytes) := by
  have hb := inOrder_of_perform h
  have hr := running_of_inOrder hb
  rw [step, perform_of_inOrder hb] at h
  obtain ⟨mem, v, index, pc, stack, sp, dt, st, fb, ak, kt, diag, loadStatus, k, r, agenda, clock, started, loaded, font⟩ := s
  cases agenda with
  | nil =>
    cases loaded with
    | true => exact .inl ⟨_, _, [], ⟨hr, .inr ⟨rfl, rfl, rfl, rfl⟩⟩, rfl, h⟩
    | false => exact .inr (.inr (.inr ⟨_, [], ⟨rfl, hr.2, .inr ⟨rfl, rfl, rfl⟩⟩, rfl, (Host.Outcome.next.inj h).symm⟩))
  | cons e rest =>
    cases e with
    | reset => exact .inr (.inr (.inl ⟨rest, rfl, (Host.Outcome.next.inj h).symm⟩))
    | tick => exact .inr (.inl ⟨rest, rfl, hr, (Host.Outcome.next.inj h).symm⟩)
    | load bytes =>
      exact .inr (.inr (.inr ⟨bytes, rest, ⟨hr.1, hr.2, .inl rfl⟩, rfl, (Host.Outcome.next.inj h).symm⟩))
    | step keys rnd => exact .inl ⟨keys, rnd, rest, ⟨hr, .inl rfl⟩, rfl, h⟩

theorem run_next (M : Host.Core) {s t : M.State} (h : M.step s = .next t) (n : Nat) :
    M.run (n + 1) s = M.run n t := by
  rw [Host.Core.run, h]

theorem run_refused (M : Host.Core) {s : M.State} {r : M.Refusal} (h : M.step s = .refused r) (n : Nat) :
    M.run (n + 1) s = .refused r := by
  rw [Host.Core.run, h]

/-- `runEvents` is the host's own run of this machine. -/
theorem runEvents_eq_run (n : Nat) (s : State) : Host.Core.run Sys2Proof.core n s = runEvents n s := by
  induction n generalizing s with
  | zero => rfl
  | succ n ih =>
    rw [runEvents]
    cases hs : step s with
    | next t => exact (run_next Sys2Proof.core hs n).trans (ih t)
    | fault r => cases r
    | refused r => exact run_refused Sys2Proof.core hs n

/-- A run of one event more, when that event answers a next state. -/
theorem runEvents_of_step {s t : State} (h : step s = .next t) (n : Nat) : runEvents (n + 1) s = runEvents n t := by
  rw [runEvents, h]

/-- A run of `n` events, then `m` more. -/
theorem runEvents_add {s t : State} {n : Nat} (m : Nat) (h : runEvents n s = .next t) :
    runEvents (n + m) s = runEvents m t := by
  induction n generalizing s with
  | zero => cases h; rw [Nat.zero_add]
  | succ n ih =>
    rw [Nat.add_right_comm, runEvents]
    rw [runEvents] at h
    cases hs : step s with
    | next u => rw [hs] at h; exact ih h
    | fault r => cases r
    | refused r => rw [hs] at h; cases h

/-- The fields that belong to the host and the driver, and the FONT parameter: no instruction touches them. -/
def State.driverFields (s : State) : LoadStatus × Keys × Byte × List HostEvent × Nat × Bool × Bool × FontTable :=
  (s.loadStatus, s.keys, s.rnd, s.agenda, s.clock, s.started, s.loaded, s.font)

theorem State.storeBytes_driverFields (s : State) (a : Nat) (bs : List Byte) :
    (s.storeBytes a bs).driverFields = s.driverFields := by
  rw [State.storeBytes_eq]; rfl

theorem State.loadV_driverFields (s : State) (k : Nat) (bs : List Byte) :
    (s.loadV k bs).driverFields = s.driverFields := by
  rw [State.loadV_eq]; rfl

theorem State.skipIf_driverFields (s : State) (c : Bool) : (s.skipIf c).driverFields = s.driverFields := by
  rw [State.skipIf_eq]; rfl

/-- No instruction touches the inputs, the agenda or the driver's record (R32, R124). -/
theorem exec_driverFields {i : Instr} {s t : State} (h : exec i s = .next t) : t.driverFields = s.driverFields := by
  cases i with
  | ret =>
    have h' := Host.Outcome.next.inj h
    rcases State.pop_cases s with ⟨_, hp⟩ | ⟨_, _, hp⟩ <;> rw [hp] at h' <;> subst h' <;> rfl
  | call nnn =>
    have h' := Host.Outcome.next.inj h
    rcases State.push_cases s s.pc with ⟨_, hp⟩ | ⟨_, hp⟩ <;> rw [hp] at h' <;> subst h' <;> rfl
  | waitKey x =>
    have h' := Host.Outcome.next.inj h
    cases hk : lowestKey s.keys <;> rw [hk] at h' <;> subst h' <;> rfl
  | seImm _ _ | sneImm _ _ | seReg _ _ | sneReg _ _ | skp _ | sknp _ =>
    have h' := Host.Outcome.next.inj h
    subst h'; exact State.skipIf_driverFields _ _
  | bcd _ | storeRegs _ =>
    have h' := Host.Outcome.next.inj h
    subst h'; exact State.storeBytes_driverFields _ _ _
  | loadRegs _ =>
    have h' := Host.Outcome.next.inj h
    subst h'; exact State.loadV_driverFields _ _ _
  | _ =>
    have h' := Host.Outcome.next.inj h
    subst h'; rfl

end Sys2Proof.Machine
end

