-- ==== Sys2Proof/Tests/Slice0.lean ====
section
/-! SUPPORT. Tests of the model and witnesses for the statements. Expected results come from spec/95_test_vectors.md (the
entry T<n> is named) or, for encodings, from the bits of 30_encoding.md R95 written out by hand. -/

namespace Sys2Proof.Tests

open Sys2Proof.Machine

/-! ### Helpers -/

/-- One event on a state. -/
def eventOn (e : HostEvent) (s : State) : Option State :=
  match step { s with agenda := [e] } with
  | .next t => some t
  | .fault _ => none
  | .refused _ => none

/-- One step, with its inputs, of the word placed at `pc`. -/
def stepWord (w : Nat) (keys : Keys) (rnd : Byte) (s : State) : Option State :=
  eventOn (.step keys rnd) (s.withFetchWord 16 w)

/-- One step of the word with no key pressed and a random byte of 0, the convention of 95_test_vectors.md. -/
def runWord (w : Nat) (s : State) : Option State := stepWord w 0#16 0#8 s

/-- The state after reset with some registers set. -/
def withV (regs : List (Reg × Byte)) : State := regs.foldl (fun s p => s.setV p.1 p.2) State.reset

/-- A state whose one load has been accepted, as the boot order has it before steps and ticks (R276). -/
def booted (s : State) : State := { s with loaded := true }

/-- A framebuffer with all cells on. -/
def allOn : FrameBuffer := Vector.replicate 32 (Vector.replicate 64 true)

/-- A state with one more cell on. -/
def cellOn (x y : Nat) (s : State) : State := { s with fb := (plotPixel (s.fb, false) x y).1 }

/-! ### Well-formedness: the one check, and terms it refuses -/

theorem test_wellFormed_refuses :
    (Instr.unknown 0x8014).wellFormed = false ∧ (Instr.unknown 0x00E0).wellFormed = false ∧
    (Instr.unknown 0x00EE).wellFormed = false ∧ (Instr.unknown 0x5120).wellFormed = false ∧
    (Instr.unknown 0x9120).wellFormed = false ∧ (Instr.unknown 0xE19E).wellFormed = false ∧
    (Instr.unknown 0xF165).wellFormed = false ∧ (Instr.unknown 0x1200).wellFormed = false := by decide

/-- The words T27 calls unknown. -/
theorem test_wellFormed_accepts :
    [0x0123#16, 0x00FF#16, 0x00E1#16, 0x5121#16, 0x8008#16, 0x800F#16, 0x9AB1#16, 0xE19F#16, 0xE000#16, 0xF000#16,
      0xFF75#16, 0xF154#16].all (fun w => (Instr.unknown w).wellFormed) = true := by decide

/-! ### Decoding: each constructor by a word written out bit by bit from R95 -/

theorem test_decode_cls : decode 0b0000000011100000#16 = .cls := by decide
theorem test_decode_ret : decode 0b0000000011101110#16 = .ret := by decide
theorem test_decode_jp : decode 0b0001101010111101#16 = .jp 0xABD := by decide
theorem test_decode_call : decode 0b0010001100010000#16 = .call 0x310 := by decide
theorem test_decode_seImm : decode 0b0011111100000001#16 = .seImm 0xF 0x01 := by decide
theorem test_decode_sneImm : decode 0b0100001011111111#16 = .sneImm 0x2 0xFF := by decide
theorem test_decode_seReg : decode 0b0101000100100000#16 = .seReg 0x1 0x2 := by decide
theorem test_decode_ldImm : decode 0b0110101000101100#16 = .ldImm 0xA 0x2C := by decide
theorem test_decode_addImm : decode 0b0111000111111111#16 = .addImm 0x1 0xFF := by decide
theorem test_decode_ldReg : decode 0b1000001000110000#16 = .ldReg 0x2 0x3 := by decide
theorem test_decode_orReg : decode 0b1000000100100001#16 = .orReg 0x1 0x2 := by decide
theorem test_decode_andReg : decode 0b1000000100100010#16 = .andReg 0x1 0x2 := by decide
theorem test_decode_xorReg : decode 0b1000000100100011#16 = .xorReg 0x1 0x2 := by decide
theorem test_decode_addReg : decode 0b1000000000010100#16 = .addReg 0x0 0x1 := by decide
theorem test_decode_subReg : decode 0b1000111100010101#16 = .subReg 0xF 0x1 := by decide
theorem test_decode_shr : decode 0b1000001010110110#16 = .shr 0x2 0xB := by decide
theorem test_decode_subnReg : decode 0b1000101010110111#16 = .subnReg 0xA 0xB := by decide
theorem test_decode_shl : decode 0b1000001000001110#16 = .shl 0x2 0x0 := by decide
theorem test_decode_sneReg : decode 0b1001000100100000#16 = .sneReg 0x1 0x2 := by decide
theorem test_decode_ldIndex : decode 0b1010001011110000#16 = .ldIndex 0x2F0 := by decide
theorem test_decode_jpV0 : decode 0b1011001000000001#16 = .jpV0 0x201 := by decide
theorem test_decode_rnd : decode 0b1100001100001111#16 = .rnd 0x3 0x0F := by decide
theorem test_decode_drw : decode 0b1101011110100101#16 = .drw 0x7 0xA 0x5 := by decide
theorem test_decode_skp : decode 0b1110000110011110#16 = .skp 0x1 := by decide
theorem test_decode_sknp : decode 0b1110000110100001#16 = .sknp 0x1 := by decide
theorem test_decode_ldFromDelay : decode 0b1111010100000111#16 = .ldFromDelay 0x5 := by decide
theorem test_decode_waitKey : decode 0b1111010000001010#16 = .waitKey 0x4 := by decide
theorem test_decode_ldDelay : decode 0b1111010100010101#16 = .ldDelay 0x5 := by decide
theorem test_decode_ldSound : decode 0b1111010100011000#16 = .ldSound 0x5 := by decide
theorem test_decode_addIndex : decode 0b1111000100011110#16 = .addIndex 0x1 := by decide
theorem test_decode_ldGlyph : decode 0b1111001000101001#16 = .ldGlyph 0x2 := by decide
theorem test_decode_bcd : decode 0b1111001100110011#16 = .bcd 0x3 := by decide
theorem test_decode_storeRegs : decode 0b1111000101010101#16 = .storeRegs 0x1 := by decide
theorem test_decode_loadRegs : decode 0b1111111101100101#16 = .loadRegs 0xF := by decide
theorem test_decode_unknown : decode 0b1000000000001000#16 = .unknown 0x8008 := by decide

/-- The words T27 calls unknown decode to the default row, and to nothing near them. -/
theorem test_decode_unknown_words :
    [0x0000#16, 0x0123#16, 0x00FF#16, 0x00E1#16, 0x5121#16, 0x8008#16, 0x800F#16, 0x9AB1#16, 0xE19F#16, 0xE000#16,
      0xF000#16, 0xFF75#16, 0xF154#16].all (fun w => decide (decode w = .unknown w)) = true := by decide

/-- The host's entry points: a table word is decoded as the bytes memory would hold, most significant first (R65). -/
theorem test_decodeTableWord :
    decodeTableWord 16 0xA2F0 = some (.ldIndex 0x2F0) ∧ decodeTableWord 16 0x00EE = some .ret ∧
    decodeTableWord 17 0x00EE = none ∧ (State.reset.withFetchWord 16 0xA2F0).fetchWord = 0xA2F0#16 ∧
    (State.reset.withFetchWord 16 0xA2F0).readByte 0x200 = 0xA2#8 := by decide

/-- A placed instruction is the next one run even in a state whose agenda holds a tick first. -/
theorem test_withFetchWord_drops_tick :
    (match step (({ State.reset with agenda := [.tick, .step 0 0] } : State).withFetchWord 16 0x6A2C) with
      | .next t => t.getV 0xA
      | .fault _ | .refused _ => 0#8) = 0x2C#8 := by decide

/-! ### The step (T20 to T25) -/

/-- T23: `pc = 0xFFFE` wraps modulo 65536 after the fetch of the bytes at 0xFFE and 0xFFF. -/
theorem test_step_pc_wraps :
    (runWord 0x6000 { withV [(0, 9)] with pc := 0xFFFE }).map (fun t => (t.getV 0, t.pc)) = some (0, 0) := by decide

/-- T22: the word at 0xFFF runs on to address 0, and `pc` is not reduced. -/
theorem test_step_fetch_wraps :
    (eventOn (.step 0 0) (booted { State.reset.storeBytes 0xFFF [0x60, 0x2A] with pc := 0x0FFF })).map
      (fun t => (t.getV 0, t.pc, t.readByte 0)) = some (0x2A, 0x1001, 0x2A) := by decide

/-! ### Control transfer -/

/-- T34: the newest of sixteen entries goes to `pc`, whatever its value. -/
theorem test_ret_full :
    (runWord 0x00EE { State.reset with sp := 16, stack := State.reset.stack.set 15 0xFFFF }).map
      (fun t => (t.sp, t.pc, t.diag)) = some (15, 0xFFFF, .none) := by decide

/-- T35. -/
theorem test_ret_underflow :
    (runWord 0x00EE { State.reset with pc := 0x212 }).map (fun t => (t.sp, t.pc, t.diag)) =
      some (0, 0x214, .stackUnderflow) := by decide

/-- T30: an odd target is accepted. -/
theorem test_jp_odd : (runWord 0x1ABD State.reset).map (fun t => t.pc) = some 0xABD := by decide

/-- T31: a jump to itself. -/
theorem test_jp_self : (runWord 0x1200 State.reset).map (fun t => t.pc) = some 0x200 := by decide

/-- T32. -/
theorem test_call_last_entry :
    (runWord 0x2FFF { State.reset with sp := 15 }).map (fun t => (t.sp, t.pc, t.stackAt 15, t.diag)) =
      some (16, 0xFFF, 0x202, .none) := by decide

/-- T33. -/
theorem test_call_overflow :
    (runWord 0x2FFF { State.reset with sp := 16 }).map (fun t => (t.sp, t.pc, t.stackAt 15, t.diag)) =
      some (16, 0x202, 0, .stackOverflow) := by decide

/-- T24: a skip at the top of `pc`. -/
theorem test_seImm_wraps :
    (runWord 0x3000 { State.reset with pc := 0xFFFE }).map (fun t => t.pc) = some 2 := by decide

/-- T37. -/
theorem test_seImm_differs : (runWord 0x3AFF (withV [(0xA, 0xFE)])).map (fun t => t.pc) = some 0x202 := by decide

/-- T38. -/
theorem test_sneImm_differs : (runWord 0x4AFF (withV [(0xA, 0xFE)])).map (fun t => t.pc) = some 0x204 := by decide

/-- The example of R145. -/
theorem test_sneImm_equal :
    (runWord 0x42FF { withV [(2, 0xFF)] with pc := 0x300 }).map (fun t => t.pc) = some 0x302 := by decide

/-- T39. -/
theorem test_seReg_same : (runWord 0x5330 (withV [(3, 9)])).map (fun t => t.pc) = some 0x204 := by decide

/-- T41. -/
theorem test_seReg_differ : (runWord 0x5120 (withV [(1, 7), (2, 8)])).map (fun t => t.pc) = some 0x202 := by decide

/-- T40. -/
theorem test_sneReg_same : (runWord 0x9330 (withV [(3, 9)])).map (fun t => t.pc) = some 0x202 := by decide

/-- T41. -/
theorem test_sneReg_differ : (runWord 0x9120 (withV [(1, 7), (2, 8)])).map (fun t => t.pc) = some 0x204 := by decide

/-- T42: the sum is not reduced. -/
theorem test_jpV0_above : (runWord 0xBFFF (withV [(0, 0xFF)])).map (fun t => t.pc) = some 0x10FE := by decide

/-- T43: V0, not `V[2]`. -/
theorem test_jpV0_v0 : (runWord 0xB201 (withV [(0, 2), (2, 0x55)])).map (fun t => t.pc) = some 0x203 := by decide

/-- T27: no skip although `V[1] = V[2]`. -/
theorem test_unknown_5121 :
    (runWord 0x5121 (withV [(0, 1), (1, 7), (2, 7)])).map (fun t => (t.pc, t.diag)) = some (0x202, .none) := by decide

/-- T26. -/
theorem test_unknown_0000 : (runWord 0x0000 State.reset).map (fun t => (t.pc, t.diag)) = some (0x202, .none) := by decide

/-! ### Registers and the ALU -/

/-- T1. -/
theorem test_ldImm : (runWord 0x6A2C State.reset).map (fun t => t.getV 0xA) = some 0x2C := by decide

/-- T25: at an odd `pc`. -/
theorem test_ldImm_odd_pc :
    (runWord 0x6B07 { State.reset with pc := 0x201 }).map (fun t => (t.getV 0xB, t.pc)) = some (7, 0x203) := by decide

/-- T50: VF as a plain destination. -/
theorem test_addImm_vF : (runWord 0x7FFF (withV [(0xF, 1)])).map (fun t => t.getV vF) = some 0 := by decide

/-- T51: no carry is written. -/
theorem test_addImm_no_flag :
    (runWord 0x7080 (withV [(0, 0x80), (0xF, 1)])).map (fun t => (t.getV 0, t.getV vF)) = some (0, 1) := by decide

/-- T52. -/
theorem test_ldReg : (runWord 0x8120 (withV [(1, 1), (2, 9)])).map (fun t => (t.getV 1, t.getV 2)) = some (9, 9) := by decide

/-- T53: VF is not zeroed. -/
theorem test_orReg :
    (runWord 0x8121 (withV [(1, 0xF0), (2, 0x0F), (0xF, 1)])).map (fun t => (t.getV 1, t.getV vF)) =
      some (0xFF, 1) := by decide

/-- T89. -/
theorem test_orReg_vF : (runWord 0x8F21 (withV [(0xF, 1), (2, 0x80)])).map (fun t => t.getV vF) = some 0x81 := by decide

/-- T54. -/
theorem test_andReg :
    (runWord 0x8122 (withV [(1, 0xF5), (2, 0x3C), (0xF, 1)])).map (fun t => (t.getV 1, t.getV vF)) =
      some (0x34, 1) := by decide

/-- T55. -/
theorem test_xorReg :
    (runWord 0x8123 (withV [(1, 0xF5), (2, 0x3C), (0xF, 1)])).map (fun t => (t.getV 1, t.getV vF)) =
      some (0xC9, 1) := by decide

/-- T56. -/
theorem test_xorReg_same : (runWord 0x8113 (withV [(1, 0xF5)])).map (fun t => t.getV 1) = some 0 := by decide

/-- T70: the sum overwrites the carry. -/
theorem test_addReg_x_vF :
    (runWord 0x8F14 (withV [(0xF, 200), (1, 100)])).map (fun t => (t.getV vF, t.getV 1)) = some (44, 100) := by decide

/-- T71: the old VF is the addend. -/
theorem test_addReg_y_vF :
    (runWord 0x80F4 (withV [(0, 200), (0xF, 100)])).map (fun t => (t.getV 0, t.getV vF)) = some (44, 1) := by decide

/-- T75: the new VF is subtracted. -/
theorem test_subReg_y_vF :
    (runWord 0x80F5 (withV [(0, 5), (0xF, 5)])).map (fun t => (t.getV 0, t.getV vF)) = some (4, 1) := by decide

/-- T5. -/
theorem test_subReg_borrow :
    (runWord 0x8015 (withV [(0, 5), (1, 10), (0xF, 1)])).map (fun t => (t.getV 0, t.getV 1, t.getV vF)) =
      some (251, 10, 0) := by decide

/-- T62: `V[y]` is ignored. -/
theorem test_shr :
    (runWord 0x8206 (withV [(2, 5), (0, 0xAA)])).map (fun t => (t.getV 2, t.getV vF, t.getV 0)) =
      some (2, 1, 0xAA) := by decide

/-- T84. -/
theorem test_shr_vF : (runWord 0x8F06 (withV [(0xF, 0xFF)])).map (fun t => t.getV vF) = some 0 := by decide

/-- T61. -/
theorem test_subnReg_borrow :
    (runWord 0x8017 (withV [(0, 10), (1, 5), (0xF, 1)])).map (fun t => (t.getV 0, t.getV vF)) = some (251, 0) := by decide

/-- T81: the result overwrites the flag. -/
theorem test_subnReg_x_vF :
    (runWord 0x8F17 (withV [(0xF, 3), (1, 10)])).map (fun t => t.getV vF) = some 9 := by decide

/-- T64. -/
theorem test_shl :
    (runWord 0x820E (withV [(2, 0x81), (0, 0x55)])).map (fun t => (t.getV 2, t.getV vF, t.getV 0)) =
      some (2, 1, 0x55) := by decide

/-- T86. -/
theorem test_shl_vF : (runWord 0x8F0E (withV [(0xF, 0x80)])).map (fun t => t.getV vF) = some 2 := by decide

/-- T66. -/
theorem test_rnd : (stepWord 0xC30F 0 0xA7 State.reset).map (fun t => t.getV 3) = some 7 := by decide

/-- T90. -/
theorem test_rnd_vF : (stepWord 0xCFF0 0 0xFF (withV [(0xF, 1)])).map (fun t => t.getV vF) = some 0xF0 := by decide

/-! ### Index register and memory transfer -/

/-- T100. -/
theorem test_ldIndex : (runWord 0xAFFF State.reset).map (fun t => t.index) = some 0xFFF := by decide

/-- T101: past 0x0FFF, no flag. -/
theorem test_addIndex :
    (runWord 0xF11E { withV [(1, 5)] with index := 0xFFE }).map (fun t => (t.index, t.getV vF)) =
      some (0x1003, 0) := by decide

/-- T103: the wrap, with VF the operand. -/
theorem test_addIndex_wraps :
    (runWord 0xFF1E { withV [(0xF, 0xFF)] with index := 0xFF01 }).map (fun t => (t.index, t.getV vF)) =
      some (0, 0xFF) := by decide

/-- T105: not masked to a digit. -/
theorem test_ldGlyph_unmasked : (runWord 0xF229 (withV [(2, 0x1A)])).map (fun t => t.index) = some 210 := by decide

/-- T106. -/
theorem test_ldGlyph_top : (runWord 0xF229 (withV [(2, 0xFF)])).map (fun t => t.index) = some 1355 := by decide

/-- T107: each address is reduced. -/
theorem test_bcd_wraps :
    (runWord 0xF333 { withV [(3, 255)] with index := 0xFFF }).map
      (fun t => (t.readByte 0xFFF, t.readByte 0, t.readByte 1, t.index)) = some (2, 5, 5, 0xFFF) := by decide

/-- T108: `I` above 4095. -/
theorem test_bcd_above :
    (runWord 0xF333 { withV [(3, 109)] with index := 0x1300 }).map
      (fun t => (t.readByte 0x300, t.readByte 0x301, t.readByte 0x302)) = some (1, 0, 9) := by decide

/-- T109. -/
theorem test_storeRegs_wraps :
    (runWord 0xF155 { withV [(0, 0xAA), (1, 0xBB)] with index := 0xFFF }).map
      (fun t => (t.readByte 0xFFF, t.readByte 0, t.index)) = some (0xAA, 0xBB, 0xFFF) := by decide

/-- T110: V0 alone. -/
theorem test_storeRegs_one :
    (runWord 0xF055 { withV [(0, 0x77), (1, 0x88)] with index := 0x300 }).map
      (fun t => (t.readByte 0x300, t.readByte 0x301)) = some (0x77, 0) := by decide

/-- T111. -/
theorem test_loadRegs_wraps :
    (runWord 0xF165 { State.reset.storeBytes 0xFFF [0x12, 0x34] with index := 0xFFF }).map
      (fun t => (t.getV 0, t.getV 1, t.getV 2)) = some (0x12, 0x34, 0) := by decide

/-- T113: the font's glyph 0 as the default table has it. -/
theorem test_loadRegs_font :
    (runWord 0xF465 { State.reset with index := 0x50 }).map
      (fun t => (t.getV 0, t.getV 1, t.getV 2, t.getV 3, t.getV 4)) = some (0xF0, 0x90, 0x90, 0x90, 0xF0) := by decide

/-! ### Display -/

/-- T128. -/
theorem test_cls :
    (runWord 0x00E0 { withV [(0xF, 1)] with fb := allOn }).map
      (fun t => (t.fb.cell 0 0, t.fb.cell 63 0, t.fb.cell 0 31, t.fb.cell 63 31, t.getV vF)) =
      some (false, false, false, false, 1) := by decide

/-- T122: clipped at the corner, with a collision. -/
theorem test_drw_clips :
    (runWord 0xD011 (cellOn 63 31 { (withV [(0, 62), (1, 31)]).storeBytes 0x300 [0xFF] with index := 0x300 })).map
      (fun t => (t.fb.cell 62 31, t.fb.cell 63 31, t.fb.cell 0 31, t.fb.cell 0 0, t.getV vF)) =
      some (true, false, false, false, 1) := by decide

/-- T126: the row is read before VF is written. -/
theorem test_drw_y_vF :
    (runWord 0xD1F1 (cellOn 2 1 { (withV [(1, 2), (0xF, 33)]).storeBytes 0x300 [0xC0] with index := 0x300 })).map
      (fun t => (t.fb.cell 2 1, t.fb.cell 3 1, t.getV vF)) = some (false, true, 1) := by decide

/-! ### Timers and keypad -/

/-- T140. -/
theorem test_ldFromDelay :
    (runWord 0xF507 { State.reset with delayTimer := 0x2A }).map (fun t => (t.getV 5, t.delayTimer)) =
      some (0x2A, 0x2A) := by decide

/-- T141. -/
theorem test_ldDelay :
    (runWord 0xF515 { State.reset with delayTimer := 9 }).map (fun t => t.delayTimer) = some 0 := by decide

/-- T142. -/
theorem test_ldSound :
    (runWord 0xF518 (withV [(5, 0xFF)])).map (fun t => (t.soundTimer, t.soundActive, t.delayTimer)) =
      some (255, true, 0) := by decide

/-- T146: the low nibble selects the key. -/
theorem test_skp_masked :
    (stepWord 0xE19E 0x0080 0 (withV [(1, 0x17)])).map (fun t => t.pc) = some 0x204 := by decide

/-- T147. -/
theorem test_skp_released : (runWord 0xE19E (withV [(1, 7)])).map (fun t => t.pc) = some 0x202 := by decide

/-- T148. -/
theorem test_sknp_pressed : (stepWord 0xE1A1 0x0080 0 (withV [(1, 7)])).map (fun t => t.pc) = some 0x202 := by decide

/-- T149. -/
theorem test_sknp_released : (runWord 0xE1A1 (withV [(1, 7)])).map (fun t => t.pc) = some 0x204 := by decide

/-- T153: `pc` is exactly what it was. -/
theorem test_waitKey_waits :
    (runWord 0xF40A { withV [(4, 9)] with pc := 0xFFF }).map (fun t => (t.pc, t.awaitingKey, t.keyTarget, t.getV 4)) =
      some (0xFFF, true, 4, 9) := by decide

/-- T152: the lowest key, and no record of the target. -/
theorem test_waitKey_lowest :
    (stepWord 0xFF0A 0x8001 0 (withV [(0xF, 9)])).map (fun t => (t.getV vF, t.pc, t.awaitingKey, t.keyTarget)) =
      some (0, 0x202, false, 0) := by decide

/-! ### The other events -/

/-- T143 and T144: no wrap at 0. -/
theorem test_tick :
    (eventOn .tick (booted { State.reset with delayTimer := 2, soundTimer := 0 })).map
      (fun t => (t.delayTimer, t.soundTimer, t.pc)) = some (1, 0, 0x200) := by decide

/-- T160, on a few pieces of state. -/
theorem test_reset :
    (eventOn .reset { (withV [(3, 7)]).storeBytes 0x50 [1] with pc := 9, index := 7, sp := 3, fb := allOn }).map
      (fun t => (t.getV 3, t.pc, t.index, t.sp, t.readByte 0x50, t.fb.cell 5 5)) =
      some (0, 0x200, 0, 0, 0xF0, false) := by decide

/-- T160 on another FONT: reset installs the machine's own at 80..159 (R271). -/
theorem test_reset_other_font :
    (eventOn .reset ((State.resetWith (Vector.replicate 80 7)).storeBytes 0x50 [1])).map
      (fun t => (t.readByte 0x4F, t.readByte 0x50, t.readByte 0x9F, t.readByte 0xA0)) = some (0, 7, 7, 0) := by decide

/-- T161. -/
theorem test_load :
    (eventOn (.load [0x12, 0x00, 0xAB]) State.reset).map
      (fun t => (t.readByte 0x200, t.readByte 0x201, t.readByte 0x202, t.readByte 0x203, t.loadStatus)) =
      some (0x12, 0, 0xAB, 0, .accepted) := by decide

/-- Memory right after reset is in its canonical form, and a write of the reset contents leaves no cell. -/
theorem test_memory_canonical :
    State.reset.mem.wf fontTable ∧ ((State.reset.writeByte 0x50 7).writeByte 0x50 0xF0).mem = [] ∧
    (State.reset.storeBytes 0x301 [5, 6]).mem = [(0x301, 5), (0x302, 6)] := by decide

/-! ### Witnesses: a concrete state and operands that meet the hypotheses of each statement -/

/-- A state whose agenda is one step, with the word placed at `pc`. -/
def ready (w : Nat) (s : State) : State := { s.withFetchWord 16 w with agenda := [.step 0 0] }

theorem ready_stepsWith (w : Nat) (s : State) : (ready w s).stepsWith 0 0 [] := ⟨⟨rfl, rfl⟩, .inl rfl⟩

/-- DecodeOfEncodeIsTheInstruction, EveryInstructionIsTwoBytes: a word no row fits, and a defined instruction. -/
theorem witness_wellFormed :
    (Instr.unknown 0x8AB8).wellFormed = true ∧ (Instr.drw 7 0xA 5).wellFormed = true ∧ ([0x12] : List Byte).length < 2 := by
  decide

/-- OpcodeRowsAreDisjoint, DecoderFollowsTheOpcodeTable: the last row of the table, a word it fits, and a word no row
fits. -/
theorem witness_opcodeRows :
    (⟨"FX65", 0xF065, 0xF0FF⟩ : OpcodeRow) ∈ opcodeRows ∧ (⟨"FX65", 0xF065, 0xF0FF⟩ : OpcodeRow).fits 0xFF65 = true ∧
    (∀ r ∈ opcodeRows, r.fits 0xFF75 = false) := by decide

/-- StepRunsTheDecodedInstruction, EveryInstructionCompletes, StepInputsAndDiagnostic: a listed step, and the step of an
empty agenda. -/
theorem witness_stepsWith :
    (ready 0xA2F0 State.reset).stepsWith 0 0 [] ∧ decode (ready 0xA2F0 State.reset).fetchWord = .ldIndex 0x2F0 ∧
    (booted State.reset).stepsWith (Config.freeKeys 0) (Config.freeRnd 0) [] ∧
    decode (booted State.reset).fetchWord = .unknown 0 :=
  ⟨ready_stepsWith _ _, by decide, ⟨⟨rfl, rfl⟩, .inr ⟨rfl, rfl, rfl, rfl⟩⟩, by decide⟩

/-- EveryInstructionCompletes: each refusal of an event happens. -/
theorem witness_refusals :
    step { State.reset with agenda := [.step 0 0] } = .refused .steppedBeforeLoad ∧
    step { booted State.reset with loadStatus := .programTooLarge } = .refused .steppedAfterRefusedLoad ∧
    step { State.reset with agenda := [.tick] } = .refused .tickedOutOfOrder ∧
    step { booted State.reset with agenda := [.load []] } = .refused .loadedTwice ∧
    step { booted State.reset with started := true, agenda := [.load []] } = .refused .loadAfterFirstStep :=
  ⟨rfl, rfl, rfl, rfl, rfl⟩

/-- StoredBytesAreFetchedNext: the two stored bytes lie at 0xFFF and 0, and the last two registers of sixteen. -/
theorem witness_storedBytes :
    ((0 < (1 : Reg).toNat) ∧ (0xFFF#16).toNat % 4096 = State.effectiveAddr { State.reset with index := 0xFFF } 0) ∧
    ((14 < (15 : Reg).toNat) ∧ (0x30E#16).toNat % 4096 = State.effectiveAddr { State.reset with index := 0x300 } 14) := by
  decide

/-- StepInputsAndDiagnostic: an instruction that reads neither input answers; the stack is full at a call, empty at a
return. -/
theorem witness_inputs :
    (¬ readsKeys .cls ∧ ¬ readsRnd .cls ∧ ∃ t, exec .cls State.reset = .next t) ∧
    (decode (ready 0x2FFF { State.reset with sp := 16 }).fetchWord = .call 0xFFF) ∧
    (decode (ready 0x00EE State.reset).fetchWord = .ret) :=
  ⟨⟨id, id, _, rfl⟩, by decide, by decide⟩

/-- JumpLoadsTheAddress: a jump to itself. -/
theorem witness_jump :
    (ready 0x1200 State.reset).stepsWith 0 0 [] ∧ decode (ready 0x1200 State.reset).fetchWord = .jp 0x200 ∧
    (0x200 : Addr12).toNat = (ready 0x1200 State.reset).pc.toNat := ⟨ready_stepsWith _ _, by decide, by decide⟩

/-- CallThenReturnComesBack: T7, and the last free entry of the stack. -/
theorem witness_callReturn :
    let s : State := { (State.reset.storeBytes 0x200 [0x23, 0x00]).storeBytes 0x300 [0x00, 0xEE] with
      agenda := [.step 0 0, .step 0 0], sp := 15, loaded := true }
    s.stepsWith 0 0 [.step 0 0] ∧ s.sp.val < 16 ∧ decode s.fetchWord = .call 0x300 ∧
    wordOfBytes (s.readByte 0x300) (s.readByte 0x301) = 0x00EE#16 :=
  ⟨⟨⟨rfl, rfl⟩, .inl rfl⟩, by decide, by decide, by decide⟩

/-- UnknownOpcodeIsANoOp. -/
theorem witness_unknown :
    (ready 0x5121 State.reset).stepsWith 0 0 [] ∧ unknownWord (ready 0x5121 State.reset).fetchWord = true :=
  ⟨ready_stepsWith _ _, by decide⟩

/-- AddSetsCarry, SubtractSetsNoBorrow, ShiftsSetTheBitShiftedOut: each case on the two register numbers is met. -/
theorem witness_registers :
    (∃ x y : Reg, x ≠ vF ∧ y ≠ vF) ∧ (∃ x y : Reg, x ≠ vF ∧ y = vF) ∧ (∃ x y : Reg, x = vF ∧ y ≠ vF) ∧
    (∃ x y : Reg, x = vF ∧ y = vF) :=
  ⟨⟨14, 14, by decide⟩, ⟨14, 15, by decide⟩, ⟨15, 14, by decide⟩, ⟨15, 15, by decide⟩⟩

/-- RegistersAreLoaded: T10, the registers zeroed between the store and the load. -/
theorem witness_roundTrip :
    ∃ t u : State, exec (.storeRegs 3) { withV [(0, 0x11), (1, 0x22), (2, 0x33), (3, 0x44)] with index := 0x400 } = .next t ∧
      u = { t with v := Vector.replicate 16 0 } ∧ u.index = t.index ∧ ∀ a, u.readByte a = t.readByte a :=
  ⟨_, _, rfl, rfl, rfl, fun _ => rfl⟩

/-- DrawXorsTheSpriteAndReportsCollision: the covered cell at the corner of T122 is on, and with a blank screen none is. -/
theorem witness_draw :
    let s : State := { (withV [(0, 62), (1, 31)]).storeBytes 0x300 [0xFF] with index := 0x300 }
    spriteCovers s 62 31 1 63 31 = true ∧ (cellOn 63 31 s).fb.cell 63 31 = true ∧ s.fb.cell 63 31 = false ∧
    spriteCovers s 62 31 1 61 31 = false ∧ spriteCovers s 62 31 0 62 31 = false := by decide

/-- DrawingTwiceRestoresTheScreen: T11. -/
theorem witness_drawTwice :
    ∃ s t u : State, exec (.drw 0 1 1) s = .next t ∧ exec (.drw 0 1 1) t = .next u ∧
      (t.getV 0).toNat % 64 = (s.getV 0).toNat % 64 ∧ (t.getV 1).toNat % 32 = (s.getV 1).toNat % 32 ∧
      spriteCovers s 8 4 1 8 4 = true ∧ s.fb.cell 8 4 = false :=
  ⟨{ (withV [(0, 8), (1, 4)]).storeBytes 0x300 [0xFF] with index := 0x300 }, _, _, rfl, rfl, by decide, by decide, by decide,
    by decide⟩

/-- WaitForKeyTakesTheLowestKey: no key, the lowest key, the highest key. -/
theorem witness_keys :
    State.reset.keys = 0#16 ∧ lowestKey 0x8001 = some 0 ∧ lowestKey 0x8000 = some 15 ∧ lowestKey 0 = none := by decide

/-- OnlyStoresWriteMemory, StackFramebufferAndIndexWriters, OnlyControlInstructionsChangePc: one instruction outside all
five lists answers. -/
theorem witness_writers :
    ¬ storesMemory (.addReg 0 1) ∧ ¬ usesStack (.addReg 0 1) ∧ ¬ writesFrameBuffer (.addReg 0 1) ∧
    ¬ writesIndex (.addReg 0 1) ∧ ¬ changesPc (.addReg 0 1) ∧ ∃ t, exec (.addReg 0 1) State.reset = .next t :=
  ⟨id, id, id, id, id, _, rfl⟩

/-- RegisterAndFlagWriters: VF written as a flag only, and a register that is neither destination nor flag. -/
theorem witness_flag :
    writesFlag (.addReg 0 1) ∧ ¬ mayWriteReg (.addReg 0 1) vF ∧ ¬ mayWriteReg (.addReg 0 1) 2 ∧
    ¬ (writesFlag (.addReg 0 1) ∧ (2 : Reg) = vF) ∧ ∃ t, exec (.addReg 0 1) State.reset = .next t :=
  ⟨trivial, (by decide : ¬ (vF = 0#4)), (by decide : ¬ (2#4 = 0#4)), fun h => absurd h.2 (by decide), _, rfl⟩

/-- TimersRiseByOpcodeOnly, AwaitingKeyGatesNothing, SoundTimerIsNeverRead, NoEventChangesTheFontParameter: a
step that raises a timer, and a tick. -/
theorem witness_events :
    (∃ t, step (ready 0xF515 (withV [(5, 9)])) = .next t) ∧
    decode (ready 0xF515 (withV [(5, 9)])).fetchWord = .ldDelay 5 ∧
    (ready 0xF515 (withV [(5, 9)])).takeEvent.1.isStep = true ∧
    (∃ t, step { booted State.reset with agenda := [.tick] } = .next t) := ⟨⟨_, rfl⟩, by decide, by decide, _, rfl⟩

/-- EveryEventKeepsMemoryCanonical: a memory with a cell, and a step that stores. -/
theorem witness_canonical :
    (ready 0xF055 { withV [(0, 0x77)] with index := 0x300 }).MemoryCanonical ∧
    ∃ t, step (ready 0xF055 { withV [(0, 0x77)] with index := 0x300 }) = .next t :=
  ⟨(by decide : Memory.wf _ _), _, rfl⟩

/-- EveryEventKeepsTheWaitAtItsInstruction: a state that awaits a key (T150's end), and its next step. -/
theorem witness_await :
    ∃ s t : State, s.awaitingKey = true ∧ s.AwaitsAtItsInstruction ∧ step s = .next t :=
  ⟨{ ready 0xF40A State.reset with awaitingKey := true, keyTarget := 4, started := true }, _, rfl,
    fun _ => ⟨rfl, by decide⟩, rfl⟩

/-- EveryEventKeepsDiagMatchingStack: a full stack with the overflow shown, an empty one with the underflow shown. -/
theorem witness_diag :
    (∃ s t : State, s.diag = .stackOverflow ∧ s.DiagMatchesStack ∧ step s = .next t) ∧
    (∃ s t : State, s.diag = .stackUnderflow ∧ s.DiagMatchesStack ∧ step s = .next t) :=
  ⟨⟨{ ready 0x2FFF State.reset with sp := 16, diag := .stackOverflow }, _, rfl, ⟨fun _ => rfl, fun h => nomatch h⟩, rfl⟩,
    ⟨{ ready 0x00EE State.reset with diag := .stackUnderflow }, _, rfl, ⟨fun h => (nomatch h), fun _ => rfl⟩, rfl⟩⟩

/-- EveryEventKeepsTheBootOrder: a machine before its load, one after it, and one that has stepped, each with an event that
answers. -/
theorem witness_bootOrder :
    (State.reset.BootOrder ∧ State.reset.loaded = false ∧ ∃ t, step State.reset = .next t) ∧
    ((booted State.reset).BootOrder ∧ ∃ t, step (booted State.reset) = .next t) ∧
    (let s : State := { booted State.reset with started := true, sp := 16 };
      s.BootOrder ∧ s.started = true ∧ ∃ t, step s = .next t) :=
  ⟨⟨⟨fun _ => rfl, fun h => nomatch h⟩, rfl, _, rfl⟩, ⟨⟨fun h => (nomatch h), fun h => nomatch h⟩, _, rfl⟩,
    ⟨fun h => (nomatch h), fun _ => ⟨rfl, rfl⟩⟩, rfl, _, rfl⟩

/-- TickCountsBothTimersDown, ResetGivesTheResetState: the event at the front of the agenda. -/
theorem witness_front :
    (let s : State := { booted State.reset with agenda := [.tick], delayTimer := 1 };
      s.running ∧ s.agenda = .tick :: []) ∧
    ({ State.reset with agenda := [.reset, .tick], sp := 16 } : State).agenda = .reset :: [.tick] :=
  ⟨⟨⟨rfl, rfl⟩, rfl⟩, rfl⟩

/-- DelayReadsBackLessTheTicks: three ticks pending, and none. -/
theorem witness_delay :
    (let s : State := { booted (withV [(0, 3)]) with agenda := [.tick, .tick, .tick] };
      s.running ∧ ∃ s1, exec (.ldDelay 0) s = .next s1 ∧ s1.agenda = List.replicate 3 .tick ++ []) ∧
    ((booted (withV [(0, 3)])).running ∧
      ∃ s1, exec (.ldDelay 0) (booted (withV [(0, 3)])) = .next s1 ∧ s1.agenda = List.replicate 0 .tick ++ []) :=
  ⟨⟨⟨rfl, rfl⟩, _, rfl, rfl⟩, ⟨rfl, rfl⟩, _, rfl, rfl⟩

/-- LoadCopiesTheImage, EveryRunStartsFromTheLaunchState: T164 and T162, the empty image and the largest; a listed load, and
the load of an empty agenda, from the reset state. -/
theorem witness_load :
    State.reset.BootOrder ∧ ([] : List Byte).length ≤ 3584 ∧ (List.replicate 3584 (0xFF : Byte)).length ≤ 3584 ∧
    ({ State.reset with agenda := [.load []] } : State).BootOrder ∧
    ({ State.reset with agenda := [.load []] } : State).loadsWith [] [] ∧
    ({ State.reset with agenda := [.load (List.replicate 3584 0xFF)] } : State).loadsWith (List.replicate 3584 0xFF) [] ∧
    State.reset.loadsWith ((Config.freeImage 0).take 3584) [] ∧ ((Config.freeImage 0).take 3584).length ≤ 3584 ∧
    State.reset.loaded = false ∧ State.reset.agenda = [] :=
  ⟨⟨fun _ => rfl, fun h => nomatch h⟩, by decide, by rw [List.length_replicate], ⟨fun _ => rfl, fun h => nomatch h⟩,
    ⟨rfl, rfl, .inl rfl⟩, ⟨rfl, rfl, .inl rfl⟩, ⟨rfl, rfl, .inr ⟨rfl, rfl, rfl⟩⟩, List.length_take_le _ _, rfl, rfl⟩

/-- BootOrderBreachesHaveNoMeaning: T163, one byte too many and then a step, a tick or a load; a step and a tick before any
load; a second load before the first step and after it. -/
theorem witness_breaches :
    (List.replicate 3585 (0xFF : Byte)).length > 3584 ∧
    (∀ e : HostEvent, ({ State.reset with agenda := [.load (List.replicate 3585 0xFF), e] } : State).loadsWith
      (List.replicate 3585 0xFF) [e]) ∧
    (State.reset.loaded = false ∧ ({ State.reset with agenda := [.step 0 0] } : State).agenda = .step 0 0 :: [] ∧
      ({ State.reset with agenda := [.tick] } : State).agenda = .tick :: []) ∧
    (let s : State := { booted State.reset with agenda := [.load []] };
      s.agenda = .load [] :: [] ∧ s.loaded = true ∧ s.started = false) ∧
    (let s : State := { booted State.reset with agenda := [.load []], started := true };
      s.agenda = .load [] :: [] ∧ s.started = true) :=
  ⟨by rw [List.length_replicate]; decide, fun _ => ⟨rfl, rfl, .inl rfl⟩, ⟨rfl, rfl, rfl⟩, ⟨rfl, rfl, rfl⟩, rfl, rfl⟩

/-- DriverFrameIsStepsThenOneTick: a frame of two steps, and a frame of none. -/
theorem witness_frame :
    ({ booted State.reset with agenda := driverFrame [(0, 1), (2, 3)] ++ [] } : State).agenda =
      [.step 0 1, .step 2 3, .tick] ∧
    ({ booted State.reset with agenda := driverFrame [] ++ [] } : State).agenda = [.tick] ∧
    (booted State.reset).running := ⟨rfl, rfl, rfl, rfl⟩

/-- FinishedProgramStaysFinished: a finished state with a step next, and one with a tick next. -/
theorem witness_finished :
    ((ready 0x1200 State.reset).finished ∧ (ready 0x1200 State.reset).takeEvent.1 = .step 0 0 ∧
      ∃ t, step (ready 0x1200 State.reset) = .next t) ∧
    (let s : State := { ready 0x1200 State.reset with agenda := [.tick] };
      s.finished ∧ s.takeEvent.1 = .tick ∧ ∃ t, step s = .next t) :=
  ⟨⟨⟨0x200, by decide, by decide, by decide⟩, rfl, _, rfl⟩, ⟨0x200, by decide, by decide, by decide⟩, rfl, _, rfl⟩

end Sys2Proof.Tests
end

section
/-! PROOFS. The inputs and the diagnostic output of a step (40_step_cycle.md R120, R124). -/

namespace Sys2Proof.Machine

/-! ### A step of a running machine -/

/-- The event taken when a step comes next, from the agenda or with the free inputs. -/
theorem State.takeEvent_of_stepsWith {s : State} {keys : Keys} {rnd : Byte} {rest : List HostEvent}
    (h : s.stepsWith keys rnd rest) :
    s.takeEvent = (.step keys rnd, { s with agenda := rest, clock := s.clock + 1 }) := by
  obtain ⟨hrun, hlisted | ⟨hnil, rfl, rfl, rfl⟩⟩ := h
  · simp only [State.takeEvent, hlisted]
  · simp only [State.takeEvent, hnil, State.unlistedEvent, hrun.1, if_true]

/-- A step event is the decoded instruction, executed after the step's own part (R120 to R122). -/
theorem step_of_stepsWith {s : State} {keys : Keys} {rnd : Byte} {rest : List HostEvent}
    (h : s.stepsWith keys rnd rest) : step s = exec (decode s.fetchWord) (s.inStep keys rnd rest) := by
  rw [step, State.takeEvent_of_stepsWith h]
  exact perform_of_inOrder (State.bootBreach_running h.1 keys rnd).1

/-! ### Other inputs in place of a step's own -/

/-- The state with another keypad snapshot and another random byte. -/
def State.withInputs (s : State) (k : Keys) (r : Byte) : State := { s with keys := k, rnd := r }

@[simp] theorem State.withInputs_pc (s : State) (k : Keys) (r : Byte) : (s.withInputs k r).pc = s.pc := rfl
@[simp] theorem State.withInputs_keys (s : State) (k : Keys) (r : Byte) : (s.withInputs k r).keys = k := rfl

theorem State.skipIf_withInputs (s : State) (k : Keys) (r : Byte) (c : Bool) :
    (s.withInputs k r).skipIf c = (s.skipIf c).withInputs k r := by
  cases c <;> rfl

theorem State.storeBytes_withInputs (s : State) (k : Keys) (r : Byte) (a : Nat) (bs : List Byte) :
    (s.withInputs k r).storeBytes a bs = (s.storeBytes a bs).withInputs k r := by
  induction bs generalizing s a with
  | nil => rfl
  | cons b bs ih => exact ih (s.writeByte a b) (a + 1)

theorem State.loadV_withInputs (s : State) (k : Keys) (r : Byte) (n : Nat) (bs : List Byte) :
    (s.withInputs k r).loadV n bs = (s.loadV n bs).withInputs k r := by
  induction bs generalizing s n with
  | nil => rfl
  | cons b bs ih => exact ih (s.setV _ b) (n + 1)

theorem State.push_withInputs (s : State) (k : Keys) (r : Byte) (a : Word) :
    (s.withInputs k r).push a = (s.push a).map (·.withInputs k r) := by
  by_cases h : s.sp.val < 16 <;> simp [State.push, State.withInputs, h]

theorem State.pop_withInputs (s : State) (k : Keys) (r : Byte) :
    (s.withInputs k r).pop = s.pop.map (fun p => (p.1, p.2.withInputs k r)) := by
  by_cases h : 0 < s.sp.val <;> simp [State.pop, State.stackAt, State.withInputs, h]

/-- An instruction passes other inputs through to its next state, where each input that it reads keeps its value
(R124). -/
theorem exec_withInputs {i : Instr} {s t : State} {k : Keys} {r : Byte} (hk : readsKeys i → k = s.keys)
    (hr : readsRnd i → r = s.rnd) (h : exec i s = .next t) :
    exec i (s.withInputs k r) = .next (t.withInputs k r) := by
  cases i with
  | skp x | sknp x =>
    obtain rfl := hk trivial
    obtain rfl := Host.Outcome.next.inj h
    exact congrArg _ (State.skipIf_withInputs _ _ _ _)
  | waitKey x =>
    obtain rfl := hk trivial
    obtain rfl := Host.Outcome.next.inj h
    simp only [exec, execWaitKey, State.withInputs_keys]
    cases lowestKey s.keys <;> rfl
  | rnd x nn =>
    obtain rfl := hr trivial
    obtain rfl := Host.Outcome.next.inj h
    rfl
  | seImm _ _ | sneImm _ _ | seReg _ _ | sneReg _ _ =>
    obtain rfl := Host.Outcome.next.inj h
    exact congrArg _ (State.skipIf_withInputs _ _ _ _)
  | bcd _ | storeRegs _ =>
    obtain rfl := Host.Outcome.next.inj h
    exact congrArg _ (State.storeBytes_withInputs _ _ _ _ _)
  | loadRegs _ =>
    obtain rfl := Host.Outcome.next.inj h
    exact congrArg _ (State.loadV_withInputs _ _ _ _ _)
  | ret =>
    obtain rfl := Host.Outcome.next.inj h
    simp only [exec, execRet, State.pop_withInputs]
    cases s.pop <;> rfl
  | call nnn =>
    obtain rfl := Host.Outcome.next.inj h
    simp only [exec, execCall, State.withInputs_pc, State.push_withInputs]
    cases s.push s.pc <;> rfl
  | _ =>
    obtain rfl := Host.Outcome.next.inj h
    rfl

/-- An instruction leaves the inputs of its step as they are. -/
theorem exec_inputs {i : Instr} {s t : State} (h : exec i s = .next t) : t.keys = s.keys ∧ t.rnd = s.rnd := by
  have hfields := exec_driverFields h
  simp only [State.driverFields, Prod.mk.injEq] at hfields
  obtain ⟨-, hkeys, hrnd, -⟩ := hfields
  exact ⟨hkeys, hrnd⟩

/-! ### The diagnostic output -/

/-- Only a call or a return touches `diag`. -/
theorem exec_diag_of_not_usesStack {i : Instr} {s t : State} (hi : ¬ usesStack i) (h : exec i s = .next t) :
    t.diag = s.diag := by
  cases i with
  | ret | call _ => exact absurd trivial hi
  | waitKey x =>
    have h' := Host.Outcome.next.inj h
    cases hk : lowestKey s.keys <;> rw [hk] at h' <;> subst h' <;> rfl
  | seImm _ _ | sneImm _ _ | seReg _ _ | sneReg _ _ | skp _ | sknp _ =>
    obtain rfl := Host.Outcome.next.inj h
    rw [State.skipIf_eq]
  | bcd _ | storeRegs _ =>
    obtain rfl := Host.Outcome.next.inj h
    rw [State.storeBytes_eq]
  | loadRegs _ =>
    obtain rfl := Host.Outcome.next.inj h
    rw [State.loadV_eq]
  | _ =>
    obtain rfl := Host.Outcome.next.inj h
    rfl

/-- Everything an instruction can do to `diag`: a return on an empty stack and a call on a full one signal, and
otherwise `diag` is left alone (R124, R141, R143). -/
theorem exec_diag_cases {i : Instr} {s t : State} (h : exec i s = .next t) :
    ((s.sp = 0 ∧ i = .ret) ∧ t.diag = .stackUnderflow) ∨
    ((s.sp = 16 ∧ ∃ nnn, i = .call nnn) ∧ t.diag = .stackOverflow) ∨
    (¬ (s.sp = 0 ∧ i = .ret) ∧ ¬ (s.sp = 16 ∧ ∃ nnn, i = .call nnn) ∧ t.diag = s.diag) := by
  cases i with
  | ret =>
    have h' := Host.Outcome.next.inj h
    rcases State.pop_cases s with ⟨hempty, hp⟩ | ⟨hpos, _, hp⟩ <;> rw [hp] at h' <;> subst h'
    · exact .inl ⟨⟨hempty, rfl⟩, rfl⟩
    · exact .inr (.inr ⟨fun e => by simp [e.1] at hpos, by simp, rfl⟩)
  | call nnn =>
    have h' := Host.Outcome.next.inj h
    rcases State.push_cases s s.pc with ⟨hfull, hp⟩ | ⟨hroom, hp⟩ <;> rw [hp] at h' <;> subst h'
    · exact .inr (.inl ⟨⟨hfull, nnn, rfl⟩, rfl⟩)
    · exact .inr (.inr ⟨by simp, fun e => by simp [e.1] at hroom, rfl⟩)
  | _ => exact .inr (.inr ⟨by simp, by simp, exec_diag_of_not_usesStack id h⟩)

/-- Settles O11: an instruction carries an input it does not read through, a step overwrites both inputs before its
instruction executes, and it clears `diag`, which only the two stack errors then set. -/
theorem stepInputsAndDiagnostic : Obligations.StepInputsAndDiagnostic := by
  refine ⟨?_, ?_, ?_, ?_⟩
  · intro i s t k hi h
    calc exec i (s.withInputs k s.rnd)
        = .next (t.withInputs k s.rnd) := exec_withInputs (absurd · hi) (fun _ => rfl) h
      _ = .next (t.withInputs k t.rnd) := by rw [(exec_inputs h).2]
  · intro i s t r hi h
    calc exec i (s.withInputs s.keys r)
        = .next (t.withInputs s.keys r) := exec_withInputs (fun _ => rfl) (absurd · hi) h
      _ = .next (t.withInputs t.keys r) := by rw [(exec_inputs h).1]
  · intro s keys k rnd r rest h
    have h' : ({ s with keys := k, rnd := r } : State).stepsWith keys rnd rest := h
    rw [step_of_stepsWith h, step_of_stepsWith h']
    rfl
  · intro s t keys rnd rest hs h
    rw [step_of_stepsWith hs] at h
    have hsp : (s.inStep keys rnd rest).sp = s.sp := rfl
    have hdiag : (s.inStep keys rnd rest).diag = .none := rfl
    have hcases := exec_diag_cases h
    rw [hsp, hdiag] at hcases
    rcases hcases with ⟨⟨hempty, hret⟩, hd⟩ | ⟨⟨hfull, nnn, hcall⟩, hd⟩ | ⟨hnoRet, hnoCall, hd⟩
    · simp [hempty, hret, hd]
    · simp [hfull, hcall, hd]
    · simp only [hd, hnoRet, hnoCall, reduceCtorEq, and_self]

end Sys2Proof.Machine
end

section
/-! PROOFS. Jumps and skips on equality: their words, what they do to `pc`, and their frame (41_control_flow.md R142,
R144 to R147). -/

namespace Sys2Proof.Machine

/-! ### The words of jumps and skips (30_encoding.md R95) -/

theorem encodedBy_jp (nnn : Addr12) : EncodedBy (.jp nnn) 0x1000 0xF000 :=
  ⟨packNNN_and_F000 _ _, by simp [encode, decode]⟩

theorem encodedBy_seImm (x : Reg) (nn : Byte) : EncodedBy (.seImm x nn) 0x3000 0xF000 :=
  ⟨packXNN_and_F000 _ _ _, by simp [encode, decode]⟩

theorem encodedBy_sneImm (x : Reg) (nn : Byte) : EncodedBy (.sneImm x nn) 0x4000 0xF000 :=
  ⟨packXNN_and_F000 _ _ _, by simp [encode, decode]⟩

theorem encodedBy_seReg (x y : Reg) : EncodedBy (.seReg x y) 0x5000 0xF00F :=
  ⟨packXYN_and_F00F _ _ _ _, by simp [encode, decode]⟩

theorem encodedBy_sneReg (x y : Reg) : EncodedBy (.sneReg x y) 0x9000 0xF00F :=
  ⟨packXYN_and_F00F _ _ _ _, by simp [encode, decode]⟩

/-! ### Changing `pc` -/

/-- Setting `pc` changes nothing else (R140). -/
theorem frame_setPc (s : State) (a : Word) : Frame noReg [.pc] s (s.setPc a) := by
  simp [Frame]

theorem frame_skipIf (s : State) (c : Bool) : Frame noReg [.pc] s (s.skipIf c) := by
  rw [show s.skipIf c = s.setPc (if c then s.pc + 2 else s.pc) from State.skipIf_eq s c]
  exact frame_setPc _ _

/-- A skip wraps modulo 65536 (R140; log 7). -/
theorem State.skipIf_pc_toNat (s : State) (c : Bool) :
    (s.skipIf c).pc.toNat = if c then (s.pc.toNat + 2) % 65536 else s.pc.toNat := by
  cases c
  · rfl
  · exact BitVec.toNat_add _ _

/-- What an instruction does whose meaning is a skip: `pc` moves on exactly when the tested condition holds, and that is
all. -/
theorem exec_of_skipIf {i : Instr} {s : State} {c : Bool} {p : Prop} [Decidable p]
    (h : exec i s = .next (s.skipIf c)) (hc : c = true ↔ p) :
    ∃ t, exec i s = .next t ∧ t.pc.toNat = (if p then (s.pc.toNat + 2) % 65536 else s.pc.toNat) ∧
      Frame noReg [.pc] s t :=
  ⟨s.skipIf c, h, by simp only [State.skipIf_pc_toNat, hc], frame_skipIf s c⟩

@[simp] theorem zextAddr_toNat (nnn : Addr12) : (zextAddr nnn).toNat = nnn.toNat :=
  BitVec.toNat_setWidth_of_le (by decide)

theorem exec_jp (nnn : Addr12) (s : State) : exec (.jp nnn) s = .next (s.setPc (zextAddr nnn)) := rfl

/-! ### A jump to itself -/

/-- With `pc` put back to where it was, the start of a step has changed its own parts alone (R120). -/
theorem frame_inStep_setPc (s : State) (keys : Keys) (rnd : Byte) (rest : List HostEvent) :
    Frame noReg stepParts s ((s.inStep keys rnd rest).setPc s.pc) := by
  refine ⟨fun _ _ => rfl, fun _ _ => rfl, ?_⟩
  simp [stepParts, State.inStep, State.beginStep]

/-- The next word is the same where neither `pc` nor memory changed (R65, R121). -/
theorem Frame.fetchWord_eq {mayReg : Reg → Prop} {may : List Part} {s t : State} (h : Frame mayReg may s t)
    (hm : .memory ∉ may) (hp : .pc ∉ may) : t.fetchWord = s.fetchWord := by
  obtain ⟨-, hmem, -, hpc, -⟩ := h
  simp only [State.fetchWord, hpc hp, hmem hm]

/-- A step at a jump to its own address puts `pc` back to where the step began (R142). -/
theorem step_of_selfJump {s : State} {keys : Keys} {rnd : Byte} {rest : List HostEvent} {nnn : Addr12}
    (h : s.stepsWith keys rnd rest) (hd : decode s.fetchWord = .jp nnn) (hself : nnn.toNat = s.pc.toNat) :
    step s = .next ((s.inStep keys rnd rest).setPc s.pc) := by
  have htarget : zextAddr nnn = s.pc := BitVec.eq_of_toNat_eq ((zextAddr_toNat nnn).trans hself)
  rw [step_of_stepsWith h, hd, exec_jp, htarget]

/-! ### The statements -/

/-- Settles O13: a jump is one setting of `pc`, and a step at a jump to itself sets `pc` back to where the step began, so
only the step's own parts change and the fetch finds the same word. -/
theorem jumpLoadsTheAddress : Obligations.JumpLoadsTheAddress := by
  refine ⟨fun nnn s => ⟨encodedBy_jp nnn, ?_⟩, fun nnn s keys rnd rest h hd hself => ?_⟩
  · exact ⟨_, exec_jp nnn s, zextAddr_toNat nnn, frame_setPc _ _⟩
  · have hframe := frame_inStep_setPc s keys rnd rest
    exact ⟨_, step_of_selfJump h hd hself, hframe.fetchWord_eq (by decide) (by decide), hframe⟩

/-- Settles O16: both meanings are skips, on equality with the immediate and on its opposite. -/
theorem skipsCompareWithTheImmediate : Obligations.SkipsCompareWithTheImmediate := by
  intro x nn s
  refine ⟨encodedBy_seImm x nn, encodedBy_sneImm x nn, ?_, ?_⟩
  · exact exec_of_skipIf (c := s.getV x == nn) rfl beq_iff_eq
  · exact exec_of_skipIf (c := s.getV x != nn) rfl bne_iff_ne

/-- Settles O17: both meanings are skips, on equality of the two registers and on its opposite. -/
theorem skipsCompareRegisters : Obligations.SkipsCompareRegisters := by
  intro x y s
  refine ⟨encodedBy_seReg x y, encodedBy_sneReg x y, ?_, ?_⟩
  · exact exec_of_skipIf (c := s.getV x == s.getV y) rfl beq_iff_eq
  · exact exec_of_skipIf (c := s.getV x != s.getV y) rfl bne_iff_ne

end Sys2Proof.Machine
end

section
/-! PROOFS. Register loads, add immediate and bitwise logic: their words, the register they write, and their frame
(42_alu.md R161 to R166). -/

namespace Sys2Proof.Machine

/-! ### The words of loads, add immediate and logic (30_encoding.md R95) -/

theorem encodedBy_ldImm (x : Reg) (nn : Byte) : EncodedBy (.ldImm x nn) 0x6000 0xF000 :=
  ⟨packXNN_and_F000 _ _ _, by simp [encode, decode]⟩

theorem encodedBy_addImm (x : Reg) (nn : Byte) : EncodedBy (.addImm x nn) 0x7000 0xF000 :=
  ⟨packXNN_and_F000 _ _ _, by simp [encode, decode]⟩

theorem encodedBy_ldReg (x y : Reg) : EncodedBy (.ldReg x y) 0x8000 0xF00F :=
  ⟨packXYN_and_F00F _ _ _ _, by simp [encode, decode, decodeGroup8]⟩

theorem encodedBy_orReg (x y : Reg) : EncodedBy (.orReg x y) 0x8001 0xF00F :=
  ⟨packXYN_and_F00F _ _ _ _, by simp [encode, decode, decodeGroup8]⟩

theorem encodedBy_andReg (x y : Reg) : EncodedBy (.andReg x y) 0x8002 0xF00F :=
  ⟨packXYN_and_F00F _ _ _ _, by simp [encode, decode, decodeGroup8]⟩

theorem encodedBy_xorReg (x y : Reg) : EncodedBy (.xorReg x y) 0x8003 0xF00F :=
  ⟨packXYN_and_F00F _ _ _ _, by simp [encode, decode, decodeGroup8]⟩

/-! ### Writing one register -/

theorem State.getV_setV_of_ne (s : State) {r q : Reg} (b : Byte) (h : q ≠ r) : (s.setV r b).getV q = s.getV q := by
  rw [State.getV_setV, if_neg h]

/-- Writing a register changes that register and nothing else (R20). -/
theorem frame_setV (s : State) (x : Reg) (b : Byte) : Frame (onlyReg x) [] s (s.setV x b) := by
  refine ⟨fun r hr => State.getV_setV_of_ne s b hr, ?_⟩
  simp

/-- What an instruction does whose meaning is the writing of one register: each bit of that register is a bit of the byte
written, and everything else is left alone. -/
theorem exec_of_setV_bits {i : Instr} {s : State} {x : Reg} {b : Byte} {f : Nat → Bool}
    (h : exec i s = .next (s.setV x b)) (hb : ∀ k, b.getLsbD k = f k) :
    ∃ t, exec i s = .next t ∧ Frame (onlyReg x) [] s t ∧ ∀ k < 8, (t.getV x).getLsbD k = f k :=
  ⟨s.setV x b, h, frame_setV s x b, fun k _ => by rw [State.getV_setV_same, hb]⟩

/-! ### The statements -/

/-- Settles O20: each meaning is one writing of `V[x]`, and the sum of 7XNN is taken in eight bits. -/
theorem registerLoadsAndAddImmediate : Obligations.RegisterLoadsAndAddImmediate := by
  refine ⟨fun x nn s => ⟨encodedBy_ldImm x nn, ?_⟩, fun x nn s => ⟨encodedBy_addImm x nn, ?_⟩,
    fun x y s => ⟨encodedBy_ldReg x y, ?_⟩⟩
  · exact ⟨s.setV x nn, rfl, State.getV_setV_same _ _ _, frame_setV _ _ _⟩
  · refine ⟨s.setV x (s.getV x + nn), rfl, ?_, frame_setV _ _ _⟩
    rw [State.getV_setV_same, BitVec.toNat_add]
  · exact ⟨s.setV x (s.getV y), rfl, State.getV_setV_same _ _ _, frame_setV _ _ _⟩

/-- Settles O21: each meaning is one writing of `V[x]`, and the operation on bytes acts on each bit alone. -/
theorem logicOperations : Obligations.LogicOperations := by
  intro x y s
  refine ⟨encodedBy_orReg x y, encodedBy_andReg x y, encodedBy_xorReg x y, ?_, ?_, ?_⟩
  · exact exec_of_setV_bits (b := s.getV x ||| s.getV y) rfl fun _ => BitVec.getLsbD_or
  · exact exec_of_setV_bits (b := s.getV x &&& s.getV y) rfl fun _ => BitVec.getLsbD_and
  · exact exec_of_setV_bits (b := s.getV x ^^^ s.getV y) rfl fun _ => BitVec.getLsbD_xor

end Sys2Proof.Machine
end

section
/-! PROOFS. The index register and memory transfer: their words, what a store leaves at `I` and a load reads from there,
and their frames (43_index_memory.md R181, R182, R184 to R186). -/

namespace Sys2Proof.Machine

/-! ### The words of index loads and memory transfer (30_encoding.md R95) -/

theorem encodedBy_ldIndex (nnn : Addr12) : EncodedBy (.ldIndex nnn) 0xA000 0xF000 :=
  ⟨packNNN_and_F000 _ _, by simp [encode, decode]⟩

theorem encodedBy_addIndex (x : Reg) : EncodedBy (.addIndex x) 0xF01E 0xF0FF :=
  ⟨packXNN_and_F0FF _ _ _, by simp [encode, decode, decodeGroupF]⟩

theorem encodedBy_bcd (x : Reg) : EncodedBy (.bcd x) 0xF033 0xF0FF :=
  ⟨packXNN_and_F0FF _ _ _, by simp [encode, decode, decodeGroupF]⟩

theorem encodedBy_storeRegs (x : Reg) : EncodedBy (.storeRegs x) 0xF055 0xF0FF :=
  ⟨packXNN_and_F0FF _ _ _, by simp [encode, decode, decodeGroupF]⟩

theorem encodedBy_loadRegs (x : Reg) : EncodedBy (.loadRegs x) 0xF065 0xF0FF :=
  ⟨packXNN_and_F0FF _ _ _, by simp [encode, decode, decodeGroupF]⟩

/-! ### Writing `I` -/

/-- Writing `I` changes nothing else, VF included (R22). -/
theorem frame_setIndex (s : State) (i : Word) : Frame noReg [.index] s { s with index := i } := by
  refine ⟨fun _ _ => rfl, fun _ _ => rfl, ?_⟩
  simp

@[simp] theorem zextByte_toNat (b : Byte) : (zextByte b).toNat = b.toNat :=
  BitVec.toNat_setWidth_of_le (by decide)

/-! ### Storing bytes at `I` -/

/-- A sequence of stores leaves everything but memory alone (R67). -/
theorem frame_storeBytes (s : State) (a : Nat) (bs : List Byte) : Frame noReg [.memory] s (s.storeBytes a bs) := by
  rw [State.storeBytes_eq]
  refine ⟨fun _ _ => rfl, ?_⟩
  simp

@[simp] theorem State.storeBytes_index (s : State) (a : Nat) (bs : List Byte) :
    (s.storeBytes a bs).index = s.index := by
  rw [State.storeBytes_eq]

theorem State.readByte_effectiveAddr (s t : State) (k : Nat) :
    t.readByte (s.effectiveAddr k) = t.readByte (s.index.toNat + k) :=
  State.readByte_mod _ _

/-- Byte `k` of a sequence stored at `I` is found at the effective address of offset `k` (R67, R180). -/
theorem State.readByte_storeBytes_effectiveAddr (s : State) (bs : List Byte) (hl : bs.length ≤ 4096) {k : Nat}
    (hk : k < bs.length) : (s.storeBytes s.index.toNat bs).readByte (s.effectiveAddr k) = bs[k] := by
  rw [State.readByte_effectiveAddr, State.readByte_storeBytes s _ k bs hk hl]

/-! ### The registers as bytes in memory -/

theorem State.regsUpTo_getElem (s : State) (x : Reg) {k : Nat} (hk : k < (s.regsUpTo x).length) :
    (s.regsUpTo x)[k] = s.getV (BitVec.ofNat 4 k) := by
  simp [State.regsUpTo]

theorem State.readBytes_getElem (s : State) (a len : Nat) {k : Nat} (hk : k < (s.readBytes a len).length) :
    (s.readBytes a len)[k] = s.readByte (a + k) := by
  simp [State.readBytes]

/-- FX55 leaves `V[k]` at the effective address of offset `k` (R185). -/
theorem readByte_storeRegs (s : State) (x : Reg) {k : Nat} (hk : k ≤ x.toNat) :
    (s.storeBytes s.index.toNat (s.regsUpTo x)).readByte (s.effectiveAddr k) = s.getV (BitVec.ofNat 4 k) := by
  have hx := x.isLt
  rw [State.readByte_storeBytes_effectiveAddr, State.regsUpTo_getElem] <;> rw [State.regsUpTo_length] <;> omega

/-- What FX65 leaves in each register (R186). -/
theorem getV_loadRegs (s : State) (x r : Reg) :
    (s.loadV 0 (s.readBytes s.index.toNat (x.toNat + 1))).getV r =
      if r.toNat ≤ x.toNat then s.readByte (s.effectiveAddr r.toNat) else s.getV r := by
  have hx := x.isLt
  rw [State.getV_loadV _ _ _ (by rw [State.readBytes_length]; omega)]
  by_cases hr : r.toNat ≤ x.toNat
  · rw [if_pos hr, dif_pos (by rw [State.readBytes_length]; omega), State.readBytes_getElem,
      State.readByte_effectiveAddr, Nat.sub_zero]
  · rw [if_neg hr, dif_neg (by rw [State.readBytes_length]; omega)]

/-- FX65 changes `V[0..x]` and nothing else (R186). -/
theorem frame_loadRegs (s : State) (x : Reg) :
    Frame (regsTo x) [] s (s.loadV 0 (s.readBytes s.index.toNat (x.toNat + 1))) := by
  refine ⟨fun r hr => (getV_loadRegs s x r).trans (if_neg hr), ?_⟩
  rw [State.loadV_eq]
  exact ⟨fun _ _ => rfl, by simp⟩

/-! ### The statements -/

/-- Settles O26: each meaning is one writing of `I`; the addition is taken in sixteen bits. -/
theorem indexIsLoadedAndAdded : Obligations.IndexIsLoadedAndAdded := by
  refine ⟨fun nnn s => ⟨encodedBy_ldIndex nnn, ?_⟩, fun x s => ⟨encodedBy_addIndex x, ?_⟩⟩
  · exact ⟨_, rfl, zextAddr_toNat nnn, frame_setIndex _ _⟩
  · refine ⟨_, rfl, ?_, frame_setIndex _ _⟩
    rw [BitVec.toNat_add, zextByte_toNat]

/-- Settles O28: FX33 is a store of three bytes at `I`, and each digit is a division or remainder in eight bits. -/
theorem decimalDigitsAreStored : Obligations.DecimalDigitsAreStored := by
  intro x s
  have hdigit {k : Nat} (hk : k < 3) :=
    s.readByte_storeBytes_effectiveAddr (decimalDigits (s.getV x)) (by simp [decimalDigits]) (k := k) hk
  refine ⟨encodedBy_bcd x, _, rfl, ?_, ?_, ?_, fun a ha => ?_, frame_storeBytes _ _ _⟩
  · rw [hdigit (by decide)]
    exact BitVec.toNat_udiv
  · rw [hdigit (by decide)]
    exact BitVec.toNat_umod.trans (congrArg (· % 10) BitVec.toNat_udiv)
  · rw [hdigit (by decide)]
    exact BitVec.toNat_umod
  · exact State.readByte_storeBytes_outside _ _ _ _ ha

/-- Settles O29: FX55 is a store of `V[0..x]` at `I`, at most sixteen bytes, so no two of its addresses meet. -/
theorem registersAreStored : Obligations.RegistersAreStored := by
  intro x s
  refine ⟨encodedBy_storeRegs x, _, rfl, fun k hk => readByte_storeRegs s x hk, fun a ha => ?_,
    frame_storeBytes _ _ _⟩
  refine State.readByte_storeBytes_outside _ _ _ _ fun k hk => ha k ?_
  rw [State.regsUpTo_length] at hk
  omega

/-- Settles O30: FX65 reads back at the effective addresses of `I`, where FX55, which keeps `I`, put the registers. -/
theorem registersAreLoaded : Obligations.RegistersAreLoaded := by
  refine ⟨fun x s => ⟨encodedBy_loadRegs x, _, rfl, fun k hk => ?_, frame_loadRegs s x⟩,
    fun x s t u h hindex hmem => ⟨_, rfl, fun r hr => ?_⟩⟩
  · have hk16 : (BitVec.ofNat 4 k).toNat = k := Nat.mod_eq_of_lt (by have := x.isLt; omega)
    rw [getV_loadRegs, hk16, if_pos hk]
  · obtain rfl := Host.Outcome.next.inj h
    have hea : u.effectiveAddr r.toNat = s.effectiveAddr r.toNat := by
      simp only [State.effectiveAddr, hindex, State.storeBytes_index]
    calc (u.loadV 0 (u.readBytes u.index.toNat (x.toNat + 1))).getV r
        = u.readByte (s.effectiveAddr r.toNat) := by rw [getV_loadRegs, if_pos hr, hea]
      _ = s.getV (BitVec.ofNat 4 r.toNat) := by rw [hmem, readByte_storeRegs s x hr]
      _ = s.getV r := by rw [BitVec.ofNat_toNat, BitVec.setWidth_eq]

end Sys2Proof.Machine
end

section
/-! PROOFS. Clearing the display: its word, what it does to the framebuffer, and its frame (44_display.md R200). -/

namespace Sys2Proof.Machine

/-- 00E0 has no operand, so its row of the opcode table is one word (30_encoding.md R95). -/
theorem encodedBy_cls : EncodedBy .cls 0x00E0 0xFFFF := ⟨by decide, by decide⟩

theorem exec_cls (s : State) : exec .cls s = .next { s with fb := FrameBuffer.blank } := rfl

/-- Replacing the framebuffer changes nothing else, VF included (R28). -/
theorem frame_setFb (s : State) (fb : FrameBuffer) : Frame noReg [.fb] s { s with fb := fb } := by
  refine ⟨fun _ _ => rfl, fun _ _ => rfl, ?_⟩
  simp

/-- Settles O31: the meaning replaces the framebuffer, whatever it held, by the blank one. -/
theorem clearTurnsEveryCellOff : Obligations.ClearTurnsEveryCellOff := by
  intro s
  exact ⟨encodedBy_cls, _, exec_cls s, fun cx _ cy _ => FrameBuffer.cell_blank cx cy, frame_setFb s _⟩

end Sys2Proof.Machine
end

section
/-! PROOFS. The tick of the Timer Clock: what it leaves in the two timers, its frame, and the tick event of a running
machine (60_exceptions.md R250). -/

namespace Sys2Proof.Machine

/-! ### Counting down -/

/-- The count stops at 0 and does not wrap to 255 (R250). -/
theorem countDown_toNat (t : Byte) : (countDown t).toNat = if t.toNat > 0 then t.toNat - 1 else 0 := by
  by_cases hzero : t = 0#8
  · subst hzero; rfl
  · have hpos : t.toNat > 0 := Nat.pos_of_ne_zero fun h => hzero (BitVec.eq_of_toNat_eq h)
    rw [countDown, if_neg hzero, if_pos hpos]
    exact BitVec.toNat_sub_of_le hpos

/-! ### What a tick and the taking of an event leave alone -/

theorem Frame.refl (mayReg : Reg → Prop) (may : List Part) (s : State) : Frame mayReg may s s := by
  refine ⟨fun _ _ => rfl, fun _ _ => rfl, ?_⟩
  simp

/-- A tick adds at most the two timers to what has changed (R250). -/
theorem Frame.tick {mayReg : Reg → Prop} {may : List Part} {s t : State} (h : Frame mayReg may s t)
    (hdelay : .delayTimer ∈ may) (hsound : .soundTimer ∈ may) : Frame mayReg may s t.tick := by
  obtain ⟨hv, hmem, hindex, hpc, hstack, hsp, -, -, hrest⟩ := h
  exact ⟨hv, hmem, hindex, hpc, hstack, hsp, absurd hdelay, absurd hsound, hrest⟩

/-- Taking an event off the agenda changes the agenda and the count of events alone (R33; log 3). -/
theorem frame_agenda_clock (mayReg : Reg → Prop) {may : List Part} (s : State) (rest : List HostEvent) (n : Nat)
    (hagenda : .agenda ∈ may) (hclock : .clock ∈ may) :
    Frame mayReg may s { s with agenda := rest, clock := n } := by
  refine ⟨fun _ _ => rfl, fun _ _ => rfl, ?_⟩
  simp [hagenda, hclock]

/-! ### The tick event -/

/-- A listed event is the one taken. -/
theorem State.takeEvent_of_agenda {s : State} {e : HostEvent} {rest : List HostEvent} (h : s.agenda = e :: rest) :
    s.takeEvent = (e, { s with agenda := rest, clock := s.clock + 1 }) := by
  simp only [State.takeEvent, h]

/-- A tick event of a running machine is the tick, after the taking of the event (R250, R276; log 18). -/
theorem step_of_tick {s : State} {rest : List HostEvent} (hrun : s.running) (h : s.agenda = .tick :: rest) :
    step s = .next (State.tick { s with agenda := rest, clock := s.clock + 1 }) := by
  have hrun' : ({ s with agenda := rest, clock := s.clock + 1 } : State).running := hrun
  rw [step, State.takeEvent_of_agenda h]
  exact perform_of_inOrder (State.bootBreach_running hrun' 0 0).2

/-! ### The statement -/

/-- Settles O50: each timer counts down and stops at 0, in every state, and a tick event of a running machine is that tick
once the event has been taken off the agenda. -/
theorem tickCountsBothTimersDown : Obligations.TickCountsBothTimersDown := by
  refine ⟨fun s => ⟨countDown_toNat _, countDown_toNat _, ?_⟩, fun s rest hrun h =>
    ⟨_, step_of_tick hrun h, rfl, countDown_toNat _, countDown_toNat _, ?_⟩⟩
  · exact (Frame.refl _ _ s).tick (by decide) (by decide)
  · exact (frame_agenda_clock _ s rest _ (by decide) (by decide)).tick (by decide) (by decide)

end Sys2Proof.Machine
end

section
/-! PROOFS. The code of an instruction: the word of a decoded instruction, decoding the word of an instruction, and the
opcode table (30_encoding.md R90 to R98). -/

namespace Sys2Proof

open Sys2Proof.Machine

/-! ### A word of a known group from its other fields (R91, R92) -/

section
variable {w : Word} {g n nn : Nat}

theorem packNNN_of_group (hg : (fieldGroup w).toNat = g) : packNNN (BitVec.ofNat 4 g) (fieldNNN w) = w := by
  rw [← hg, BitVec.ofNat_toNat, BitVec.setWidth_eq, packNNN_fields]

theorem packXNN_of_group (hg : (fieldGroup w).toNat = g) :
    packXNN (BitVec.ofNat 4 g) (fieldX w) (fieldNN w) = w := by
  rw [← hg, BitVec.ofNat_toNat, BitVec.setWidth_eq, packXNN_fields]

theorem packXNN_of_group_NN (hg : (fieldGroup w).toNat = g) (hnn : (fieldNN w).toNat = nn) :
    packXNN (BitVec.ofNat 4 g) (fieldX w) (BitVec.ofNat 8 nn) = w := by
  rw [← hnn, BitVec.ofNat_toNat, BitVec.setWidth_eq, packXNN_of_group hg]

theorem packXYN_of_group (hg : (fieldGroup w).toNat = g) :
    packXYN (BitVec.ofNat 4 g) (fieldX w) (fieldY w) (fieldN w) = w := by
  rw [← hg, BitVec.ofNat_toNat, BitVec.setWidth_eq, packXYN_fields]

theorem packXYN_of_group_N (hg : (fieldGroup w).toNat = g) (hn : (fieldN w).toNat = n) :
    packXYN (BitVec.ofNat 4 g) (fieldX w) (fieldY w) (BitVec.ofNat 4 n) = w := by
  rw [← hn, BitVec.ofNat_toNat, BitVec.setWidth_eq, packXYN_of_group hg]

end

/-! ### The word of a decoded instruction -/

/-- What the decoder has to give for a word: a well-formed instruction that encodes to it. -/
def Instr.codes (i : Instr) (w : Word) : Prop := i.wellFormed = true ∧ encode i = w

theorem decodeGroup8_codes {w : Word} (hg : (fieldGroup w).toNat = 0x8) : (decodeGroup8 w).codes w := by
  unfold decodeGroup8
  split
  case h_1 hn | h_2 hn | h_3 hn | h_4 hn | h_5 hn | h_6 hn | h_7 hn | h_8 hn | h_9 hn =>
    exact ⟨rfl, packXYN_of_group_N hg hn⟩
  case h_10 =>
    have hlt := (fieldN w).isLt
    refine ⟨?_, rfl⟩
    simp only [imp_false] at *
    simp only [Instr.wellFormed, unknownWord_fields, hg, List.contains_iff_mem, List.mem_cons, List.not_mem_nil]
    omega

theorem decodeGroupE_codes {w : Word} (hg : (fieldGroup w).toNat = 0xE) : (decodeGroupE w).codes w := by
  unfold decodeGroupE
  split
  case h_1 hnn | h_2 hnn => exact ⟨rfl, packXNN_of_group_NN hg hnn⟩
  next => exact ⟨by simp_all [Instr.wellFormed, unknownWord_fields], rfl⟩

theorem decodeGroupF_codes {w : Word} (hg : (fieldGroup w).toNat = 0xF) : (decodeGroupF w).codes w := by
  unfold decodeGroupF
  split
  case h_1 hnn | h_2 hnn | h_3 hnn | h_4 hnn | h_5 hnn | h_6 hnn | h_7 hnn | h_8 hnn | h_9 hnn =>
    exact ⟨rfl, packXNN_of_group_NN hg hnn⟩
  next => exact ⟨by simp_all [Instr.wellFormed, unknownWord_fields], rfl⟩

theorem decode_codes (w : Word) : (decode w).codes w := by
  unfold decode
  split
  case h_1 hg =>
    split
    next hw => exact ⟨rfl, hw.symm⟩
    next hcls =>
      split
      next hw => exact ⟨rfl, hw.symm⟩
      next hret => exact ⟨by simp [Instr.wellFormed, unknownWord_fields, hg, hcls, hret], rfl⟩
  case h_2 hg | h_3 hg | h_11 hg | h_12 hg => exact ⟨rfl, packNNN_of_group hg⟩
  case h_4 hg | h_5 hg | h_7 hg | h_8 hg | h_13 hg => exact ⟨rfl, packXNN_of_group hg⟩
  case h_6 hg | h_10 hg =>
    split
    next hn => exact ⟨rfl, packXYN_of_group_N hg (congrArg BitVec.toNat hn)⟩
    next hn =>
      have hn' : (fieldN w).toNat ≠ 0 := fun e => hn (BitVec.eq_of_toNat_eq e)
      exact ⟨by simp [Instr.wellFormed, unknownWord_fields, hg, hn'], rfl⟩
  case h_9 hg => exact decodeGroup8_codes hg
  case h_14 hg => exact ⟨rfl, packXYN_of_group hg⟩
  case h_15 hg => exact decodeGroupE_codes hg
  case h_16 =>
    have hlt := (fieldGroup w).isLt
    simp only [imp_false] at *
    exact decodeGroupF_codes (by omega)

theorem encode_decode (w : Word) : encode (decode w) = w := (decode_codes w).2

/-- Settles O2: branch by branch of the decoder, the fields that a branch keeps and the ones it has tested make the word
again. -/
theorem encodeOfDecodeIsTheWord : Obligations.EncodeOfDecodeIsTheWord := decode_codes

/-! ### Decoding the word of an instruction -/

/-- Whether an instruction is one of the 34 rows. -/
def Instr.defined : Instr → Prop
  | .unknown _ => False
  | _ => True

theorem unknownWord_encode {i : Instr} (hi : i.defined) : unknownWord (encode i) = false := by
  cases i with
  | unknown w => exact hi.elim
  | cls | ret => decide
  | _ => simp [unknownWord_fields, encode]

/-- The default row keeps the whole word (R98). -/
theorem eq_of_decode_eq_unknown {w v : Word} (h : decode w = .unknown v) : v = w := by
  have hw := encode_decode w
  rwa [h] at hw

theorem decode_eq_unknown_or_defined (w : Word) : decode w = .unknown w ∨ (decode w).defined := by
  cases hi : decode w with
  | unknown v => exact .inl (by rw [eq_of_decode_eq_unknown hi])
  | _ => exact .inr trivial

/-- The decoder answers the default row exactly for R97's words. -/
theorem decode_eq_unknown_iff {w : Word} : decode w = .unknown w ↔ unknownWord w = true := by
  constructor
  · intro h
    obtain ⟨hwf, -⟩ := decode_codes w
    rwa [h] at hwf
  · intro h
    rcases decode_eq_unknown_or_defined w with hunknown | hdefined
    · exact hunknown
    · have hlisted := unknownWord_encode hdefined
      rw [encode_decode, h] at hlisted
      cases hlisted

theorem decode_encode {i : Instr} (h : i.wellFormed = true) : decode (encode i) = i := by
  cases i with
  | unknown w => exact decode_eq_unknown_iff.2 h
  | cls | ret => decide
  | jp _ | call _ | ldIndex _ | jpV0 _ => simp [encode, decode]
  | seImm _ _ | sneImm _ _ | ldImm _ _ | addImm _ _ | rnd _ _ => simp [encode, decode]
  | seReg _ _ | sneReg _ _ | drw _ _ _ => simp [encode, decode]
  | ldReg _ _ | orReg _ _ | andReg _ _ | xorReg _ _ => simp [encode, decode, decodeGroup8]
  | addReg _ _ | subReg _ _ | shr _ _ | subnReg _ _ | shl _ _ => simp [encode, decode, decodeGroup8]
  | skp _ | sknp _ => simp [encode, decode, decodeGroupE]
  | ldFromDelay _ | waitKey _ | ldDelay _ | ldSound _ => simp [encode, decode, decodeGroupF]
  | addIndex _ | ldGlyph _ | bcd _ | storeRegs _ | loadRegs _ => simp [encode, decode, decodeGroupF]

/-- Settles O1: the fields of a packed word are the operands, and the decoder's branch is that of the fixed digits; a word
of the default row decodes to it because no other instruction has such a word. -/
theorem decodeOfEncodeIsTheInstruction : Obligations.DecodeOfEncodeIsTheInstruction :=
  fun _ h => decode_encode h

/-- Settles O6: the two bytes of a word make it again, and the decoder reads no third one. -/
theorem everyInstructionIsTwoBytes : Obligations.EveryInstructionIsTwoBytes := by
  refine ⟨fun i rest h => ⟨rfl, ?_⟩, fun bytes h => ?_⟩
  · simp only [encodeBytes, List.cons_append, List.nil_append, decodeBytes, wordOfBytes_high_low, decode_encode h]
  · match bytes, h with
    | [], _ | [_], _ => rfl

/-- Settles O3: each word is decoded by evaluation. -/
theorem sampleWordsDecode : Obligations.SampleWordsDecode := by
  unfold Obligations.SampleWordsDecode
  decide

/-! ### The words of the other instructions (30_encoding.md R95) -/

theorem Machine.encodedBy_ret : EncodedBy .ret 0x00EE 0xFFFF := ⟨by decide, decode_encode rfl⟩

theorem Machine.encodedBy_call (nnn : Addr12) : EncodedBy (.call nnn) 0x2000 0xF000 :=
  ⟨packNNN_and_F000 _ _, decode_encode rfl⟩

theorem Machine.encodedBy_addReg (x y : Reg) : EncodedBy (.addReg x y) 0x8004 0xF00F :=
  ⟨packXYN_and_F00F _ _ _ _, decode_encode rfl⟩

theorem Machine.encodedBy_subReg (x y : Reg) : EncodedBy (.subReg x y) 0x8005 0xF00F :=
  ⟨packXYN_and_F00F _ _ _ _, decode_encode rfl⟩

theorem Machine.encodedBy_shr (x y : Reg) : EncodedBy (.shr x y) 0x8006 0xF00F :=
  ⟨packXYN_and_F00F _ _ _ _, decode_encode rfl⟩

theorem Machine.encodedBy_subnReg (x y : Reg) : EncodedBy (.subnReg x y) 0x8007 0xF00F :=
  ⟨packXYN_and_F00F _ _ _ _, decode_encode rfl⟩

theorem Machine.encodedBy_shl (x y : Reg) : EncodedBy (.shl x y) 0x800E 0xF00F :=
  ⟨packXYN_and_F00F _ _ _ _, decode_encode rfl⟩

theorem Machine.encodedBy_jpV0 (nnn : Addr12) : EncodedBy (.jpV0 nnn) 0xB000 0xF000 :=
  ⟨packNNN_and_F000 _ _, decode_encode rfl⟩

theorem Machine.encodedBy_rnd (x : Reg) (nn : Byte) : EncodedBy (.rnd x nn) 0xC000 0xF000 :=
  ⟨packXNN_and_F000 _ _ _, decode_encode rfl⟩

theorem Machine.encodedBy_drw (x y : Reg) (n : BitVec 4) : EncodedBy (.drw x y n) 0xD000 0xF000 :=
  ⟨packXYN_and_F000 _ _ _ _, decode_encode rfl⟩

theorem Machine.encodedBy_skp (x : Reg) : EncodedBy (.skp x) 0xE09E 0xF0FF := ⟨packXNN_and_F0FF _ _ _, decode_encode rfl⟩

theorem Machine.encodedBy_sknp (x : Reg) : EncodedBy (.sknp x) 0xE0A1 0xF0FF := ⟨packXNN_and_F0FF _ _ _, decode_encode rfl⟩

theorem Machine.encodedBy_ldFromDelay (x : Reg) : EncodedBy (.ldFromDelay x) 0xF007 0xF0FF :=
  ⟨packXNN_and_F0FF _ _ _, decode_encode rfl⟩

theorem Machine.encodedBy_waitKey (x : Reg) : EncodedBy (.waitKey x) 0xF00A 0xF0FF :=
  ⟨packXNN_and_F0FF _ _ _, decode_encode rfl⟩

theorem Machine.encodedBy_ldDelay (x : Reg) : EncodedBy (.ldDelay x) 0xF015 0xF0FF :=
  ⟨packXNN_and_F0FF _ _ _, decode_encode rfl⟩

theorem Machine.encodedBy_ldSound (x : Reg) : EncodedBy (.ldSound x) 0xF018 0xF0FF :=
  ⟨packXNN_and_F0FF _ _ _, decode_encode rfl⟩

theorem Machine.encodedBy_ldGlyph (x : Reg) : EncodedBy (.ldGlyph x) 0xF029 0xF0FF :=
  ⟨packXNN_and_F0FF _ _ _, decode_encode rfl⟩

/-! ### The opcode table -/

/-- A word that fits two rows makes their fixed bits agree under both masks (R96). -/
theorem bits_agree_of_fits {r q : OpcodeRow} {w : Word} (hr : r.fits w = true) (hq : q.fits w = true) :
    r.bits &&& q.mask = q.bits &&& r.mask := by
  have hr' : w &&& r.mask = r.bits := beq_iff_eq.1 hr
  have hq' : w &&& q.mask = q.bits := beq_iff_eq.1 hq
  rw [← hr', ← hq', BitVec.and_assoc, BitVec.and_assoc, BitVec.and_comm r.mask]

theorem eq_of_bits_agree :
    ∀ r ∈ opcodeRows, ∀ q ∈ opcodeRows, r.bits &&& q.mask = q.bits &&& r.mask → r = q := by
  decide

/-- Settles O4: two rows whose fixed bits agree under both masks are one row, and a common word makes them agree. -/
theorem opcodeRowsAreDisjoint : Obligations.OpcodeRowsAreDisjoint :=
  fun _ r q hr hq hwr hwq => eq_of_bits_agree r hr q hq (bits_agree_of_fits hwr hwq)

/-- The word of an instruction fits a row as soon as the table lists the instruction's pattern. -/
theorem row_of_encodedBy {i : Instr} {bits mask : Word} (h : EncodedBy i bits mask)
    (hrow : (bits, mask) ∈ opcodeRows.map fun r => (r.bits, r.mask)) : ∃ r ∈ opcodeRows, r.fits (encode i) = true := by
  obtain ⟨r, hr, hpattern⟩ := List.mem_map.1 hrow
  obtain ⟨rfl, rfl⟩ := Prod.mk.inj hpattern
  exact ⟨r, hr, beq_iff_eq.2 h.1⟩

/-- The word of every defined instruction fits a row of the table. -/
theorem row_of_defined {i : Instr} (hi : i.defined) : ∃ r ∈ opcodeRows, r.fits (encode i) = true := by
  cases i with
  | unknown w => exact hi.elim
  | cls => exact row_of_encodedBy encodedBy_cls (by decide)
  | ret => exact row_of_encodedBy encodedBy_ret (by decide)
  | jp nnn => exact row_of_encodedBy (encodedBy_jp nnn) (by decide)
  | call nnn => exact row_of_encodedBy (encodedBy_call nnn) (by decide)
  | seImm x nn => exact row_of_encodedBy (encodedBy_seImm x nn) (by decide)
  | sneImm x nn => exact row_of_encodedBy (encodedBy_sneImm x nn) (by decide)
  | seReg x y => exact row_of_encodedBy (encodedBy_seReg x y) (by decide)
  | ldImm x nn => exact row_of_encodedBy (encodedBy_ldImm x nn) (by decide)
  | addImm x nn => exact row_of_encodedBy (encodedBy_addImm x nn) (by decide)
  | ldReg x y => exact row_of_encodedBy (encodedBy_ldReg x y) (by decide)
  | orReg x y => exact row_of_encodedBy (encodedBy_orReg x y) (by decide)
  | andReg x y => exact row_of_encodedBy (encodedBy_andReg x y) (by decide)
  | xorReg x y => exact row_of_encodedBy (encodedBy_xorReg x y) (by decide)
  | addReg x y => exact row_of_encodedBy (encodedBy_addReg x y) (by decide)
  | subReg x y => exact row_of_encodedBy (encodedBy_subReg x y) (by decide)
  | shr x y => exact row_of_encodedBy (encodedBy_shr x y) (by decide)
  | subnReg x y => exact row_of_encodedBy (encodedBy_subnReg x y) (by decide)
  | shl x y => exact row_of_encodedBy (encodedBy_shl x y) (by decide)
  | sneReg x y => exact row_of_encodedBy (encodedBy_sneReg x y) (by decide)
  | ldIndex nnn => exact row_of_encodedBy (encodedBy_ldIndex nnn) (by decide)
  | jpV0 nnn => exact row_of_encodedBy (encodedBy_jpV0 nnn) (by decide)
  | rnd x nn => exact row_of_encodedBy (encodedBy_rnd x nn) (by decide)
  | drw x y n => exact row_of_encodedBy (encodedBy_drw x y n) (by decide)
  | skp x => exact row_of_encodedBy (encodedBy_skp x) (by decide)
  | sknp x => exact row_of_encodedBy (encodedBy_sknp x) (by decide)
  | ldFromDelay x => exact row_of_encodedBy (encodedBy_ldFromDelay x) (by decide)
  | waitKey x => exact row_of_encodedBy (encodedBy_waitKey x) (by decide)
  | ldDelay x => exact row_of_encodedBy (encodedBy_ldDelay x) (by decide)
  | ldSound x => exact row_of_encodedBy (encodedBy_ldSound x) (by decide)
  | addIndex x => exact row_of_encodedBy (encodedBy_addIndex x) (by decide)
  | ldGlyph x => exact row_of_encodedBy (encodedBy_ldGlyph x) (by decide)
  | bcd x => exact row_of_encodedBy (encodedBy_bcd x) (by decide)
  | storeRegs x => exact row_of_encodedBy (encodedBy_storeRegs x) (by decide)
  | loadRegs x => exact row_of_encodedBy (encodedBy_loadRegs x) (by decide)

theorem and_mask_FFFF (w : Word) : w &&& 0xFFFF#16 = w := BitVec.and_allOnes

theorem packNNN_eq_iff {g : BitVec 4} {nnn : Addr12} {w : Word} :
    packNNN g nnn = w ↔ g = fieldGroup w ∧ nnn = fieldNNN w := by
  constructor
  · rintro rfl; simp
  · rintro ⟨rfl, rfl⟩; exact packNNN_fields w

theorem packXNN_eq_iff {g : BitVec 4} {x : Reg} {nn : Byte} {w : Word} :
    packXNN g x nn = w ↔ g = fieldGroup w ∧ x = fieldX w ∧ nn = fieldNN w := by
  constructor
  · rintro rfl; simp
  · rintro ⟨rfl, rfl, rfl⟩; exact packXNN_fields w

theorem packXYN_eq_iff {g : BitVec 4} {x y : Reg} {n : BitVec 4} {w : Word} :
    packXYN g x y n = w ↔ g = fieldGroup w ∧ x = fieldX w ∧ y = fieldY w ∧ n = fieldN w := by
  constructor
  · rintro rfl; simp
  · rintro ⟨rfl, rfl, rfl, rfl⟩; exact packXYN_fields w

/-- A word that fits a row has the row's fixed fields, and those fields are what the decoder's branches test. -/
theorem mnemonic_of_fits {r : OpcodeRow} {w : Word} (hr : r ∈ opcodeRows) (h : r.fits w = true) :
    (decode w).mnemonic = r.mnemonic := by
  have hbits : w &&& r.mask = r.bits := beq_iff_eq.1 h
  fin_cases hr
  all_goals
    simp [and_mask_FFFF, and_mask_F000, and_mask_F00F, and_mask_F0FF, packNNN_eq_iff, packXNN_eq_iff,
      packXYN_eq_iff, fieldGroup, fieldX, fieldY, fieldN, fieldNN, fieldNNN] at hbits
    simp [decode, decodeGroup8, decodeGroupE, decodeGroupF, fieldGroup, fieldN, fieldNN, hbits, Instr.mnemonic]

/-- Settles O5: a word's row determines the decoder's branch; every defined instruction's word has a row and the default row
is in no row of the table. -/
theorem decoderFollowsTheOpcodeTable : Obligations.DecoderFollowsTheOpcodeTable := by
  intro w
  refine ⟨fun r hr h => mnemonic_of_fits hr h, ⟨fun hunknown r hr => ?_, fun hnone => ?_⟩, decode_eq_unknown_iff⟩
  · have hnames : ∀ q ∈ opcodeRows, q.mnemonic ≠ "NOP.UNK" := by decide
    refine Bool.eq_false_iff.2 fun h => hnames r hr ?_
    rw [← mnemonic_of_fits hr h, hunknown]
    rfl
  · rcases decode_eq_unknown_or_defined w with hunknown | hdefined
    · exact hunknown
    · obtain ⟨r, hr, hfits⟩ := row_of_defined hdefined
      rw [encode_decode, hnone r hr] at hfits
      cases hfits

end Sys2Proof
end

section
/-! PROOFS. What each instruction may change, said once as a frame, and the whole-machine rules that follow (10_state.md
R20 to R28, 20_memory.md R68). -/

namespace Sys2Proof.Machine

/-! ### Frames part by part -/

/-- A part of the state is the same in two states; memory is compared byte by byte. -/
def Part.same : Part → State → State → Prop
  | .memory, s, t => ∀ a, t.readByte a = s.readByte a
  | .index, s, t => t.index = s.index
  | .pc, s, t => t.pc = s.pc
  | .stack, s, t => t.stack = s.stack
  | .sp, s, t => t.sp = s.sp
  | .delayTimer, s, t => t.delayTimer = s.delayTimer
  | .soundTimer, s, t => t.soundTimer = s.soundTimer
  | .fb, s, t => t.fb = s.fb
  | .awaitingKey, s, t => t.awaitingKey = s.awaitingKey
  | .keyTarget, s, t => t.keyTarget = s.keyTarget
  | .diag, s, t => t.diag = s.diag
  | .loadStatus, s, t => t.loadStatus = s.loadStatus
  | .keys, s, t => t.keys = s.keys
  | .rnd, s, t => t.rnd = s.rnd
  | .agenda, s, t => t.agenda = s.agenda
  | .clock, s, t => t.clock = s.clock
  | .started, s, t => t.started = s.started
  | .loaded, s, t => t.loaded = s.loaded
  | .font, s, t => t.font = s.font

theorem Part.same_trans {p : Part} {s t u : State} (hst : p.same s t) (htu : p.same t u) : p.same s u := by
  cases p with
  | memory => exact fun a => (htu a).trans (hst a)
  | _ => exact Eq.trans htu hst

theorem frame_iff {mayReg : Reg → Prop} {may : List Part} {s t : State} : Frame mayReg may s t ↔
    (∀ r, ¬ mayReg r → t.getV r = s.getV r) ∧ ∀ p, p ∉ may → p.same s t := by
  constructor
  · rintro ⟨hreg, hrest⟩
    refine ⟨hreg, fun p => ?_⟩
    obtain ⟨_, _, _, _, _, _, _, _, _, _, _, _, _, _, _, _, _, _, _⟩ := hrest
    cases p <;> assumption
  · rintro ⟨hreg, hparts⟩
    exact ⟨hreg, hparts .memory, hparts .index, hparts .pc, hparts .stack, hparts .sp, hparts .delayTimer,
      hparts .soundTimer, hparts .fb, hparts .awaitingKey, hparts .keyTarget, hparts .diag, hparts .loadStatus,
      hparts .keys, hparts .rnd, hparts .agenda, hparts .clock, hparts .started, hparts .loaded, hparts .font⟩

section
variable {mayReg mayReg' : Reg → Prop} {may may' : List Part} {s t u : State}

/-- A part that may not change is the same. -/
theorem Frame.same (h : Frame mayReg may s t) {p : Part} (hp : p ∉ may) : p.same s t := (frame_iff.1 h).2 p hp

theorem Frame.getV_eq (h : Frame mayReg may s t) {r : Reg} (hr : ¬ mayReg r) : t.getV r = s.getV r := h.1 r hr

/-- A frame that allows more. -/
theorem Frame.mono (h : Frame mayReg may s t) (hreg : ∀ r, mayReg r → mayReg' r) (hparts : may ⊆ may') :
    Frame mayReg' may' s t :=
  frame_iff.2 ⟨fun r hr => h.getV_eq (mt (hreg r) hr), fun _ hp => h.same fun hmem => hp (hparts hmem)⟩

theorem Frame.trans (hst : Frame mayReg may s t) (htu : Frame mayReg may t u) : Frame mayReg may s u :=
  frame_iff.2 ⟨fun _ hr => (htu.getV_eq hr).trans (hst.getV_eq hr), fun _ hp => Part.same_trans (hst.same hp) (htu.same hp)⟩

/-- A part that turns out to be the same need not be allowed. -/
theorem Frame.drop {p : Part} (h : Frame mayReg (p :: may) s t) (hp : p.same s t) : Frame mayReg may s t := by
  refine frame_iff.2 ⟨fun _ => h.getV_eq, fun q hq => ?_⟩
  by_cases hqp : q = p
  · rwa [hqp]
  · exact h.same fun hmem => (List.mem_cons.1 hmem).elim hqp hq

end

/-! ### Frames of the remaining updates -/

/-- Writing the flag and then the result changes VF and the destination (R160). -/
theorem frame_setV_setV (s : State) (x : Reg) (f b : Byte) : Frame (regAndVF x) [] s ((s.setV vF f).setV x b) :=
  ((frame_setV s vF f).mono (fun _ => .inr) (List.Subset.refl _)).trans
    ((frame_setV (s.setV vF f) x b).mono (fun _ => .inl) (List.Subset.refl _))

theorem frame_setFb_setV (s : State) (fb : FrameBuffer) (x : Reg) (b : Byte) :
    Frame (onlyReg x) [.fb] s (State.setV { s with fb := fb } x b) :=
  ((frame_setFb s fb).mono (fun _ => False.elim) (List.Subset.refl _)).trans
    ((frame_setV { s with fb := fb } x b).mono (fun _ => id) (List.nil_subset _))

theorem frame_signal (s : State) (d : Diag) : Frame noReg [.diag] s (s.signal d) := by
  refine ⟨fun _ _ => rfl, fun _ _ => rfl, ?_⟩
  simp

/-- The state after a call that finds `k` entries: the return address is pushed and `pc` is the target (R143). -/
def State.afterCall (s : State) (k : Fin 16) (nnn : Addr12) : State :=
  State.setPc { s with stack := s.stack.set k.val s.pc, sp := k.succ } (zextAddr nnn)

/-- The state after a return that takes entry `k` (R141). -/
def State.afterReturn (s : State) (k : Fin 16) : State := State.setPc { s with sp := k.castSucc } (s.stackAt k)

theorem frame_afterCall (s : State) (k : Fin 16) (nnn : Addr12) :
    Frame noReg [.pc, .sp, .stack] s (s.afterCall k nnn) := by
  refine ⟨fun _ _ => rfl, fun _ _ => rfl, ?_⟩
  simp [State.afterCall]

theorem frame_afterReturn (s : State) (k : Fin 16) : Frame noReg [.pc, .sp] s (s.afterReturn k) := by
  refine ⟨fun _ _ => rfl, fun _ _ => rfl, ?_⟩
  simp [State.afterReturn]

theorem frame_setDelayTimer (s : State) (b : Byte) : Frame noReg [.delayTimer] s { s with delayTimer := b } := by
  refine ⟨fun _ _ => rfl, fun _ _ => rfl, ?_⟩
  simp

theorem frame_setSoundTimer (s : State) (b : Byte) : Frame noReg [.soundTimer] s { s with soundTimer := b } := by
  refine ⟨fun _ _ => rfl, fun _ _ => rfl, ?_⟩
  simp

/-- Recording a wait moves `pc` and writes the wait record (R221). -/
theorem frame_wait (s : State) (a : Word) (x : Reg) : Frame noReg [.awaitingKey, .keyTarget, .pc] s
    { s.setPc a with awaitingKey := true, keyTarget := x } := by
  refine ⟨fun _ _ => rfl, fun _ _ => rfl, ?_⟩
  simp

/-- Ending a wait writes the key's register and clears `awaiting_key` (R221). -/
theorem frame_setV_noWait (s : State) (x : Reg) (b : Byte) :
    Frame (onlyReg x) [.awaitingKey] s { s.setV x b with awaitingKey := false } := by
  refine ⟨fun r hr => State.getV_setV_of_ne s b hr, fun _ _ => rfl, ?_⟩
  simp

/-! ### The meanings with a case split, case by case -/

theorem exec_ret_of_empty {s : State} (h : s.sp = 0) : exec .ret s = .next (s.signal .stackUnderflow) := by
  rcases State.pop_cases s with ⟨_, hpop⟩ | ⟨hpos, _⟩
  · simp only [exec, execRet, hpop]
  · simp [h] at hpos

theorem exec_ret_of_entry {s : State} {k : Fin 16} (h : s.sp = k.succ) :
    exec .ret s = .next (s.afterReturn k) := by
  simp [exec, execRet, State.pop, h]
  rfl

theorem exec_call_of_full {s : State} (nnn : Addr12) (h : s.sp = 16) :
    exec (.call nnn) s = .next (s.signal .stackOverflow) := by
  rcases State.push_cases s s.pc with ⟨_, hpush⟩ | ⟨hlt, _⟩
  · simp only [exec, execCall, hpush]
  · simp [h] at hlt

theorem exec_call_of_room {s : State} (nnn : Addr12) {k : Fin 16} (h : s.sp = k.castSucc) :
    exec (.call nnn) s = .next (s.afterCall k nnn) := by
  simp [exec, execCall, State.push, h]
  rfl

theorem exec_waitKey_of_none {s : State} (x : Reg) (h : s.keys = 0#16) :
    exec (.waitKey x) s = .next { s.setPc (s.pc - 2) with awaitingKey := true, keyTarget := x } := by
  simp only [exec, execWaitKey, lowestKey_eq_none.2 h]

theorem exec_waitKey_of_some {s : State} (x : Reg) {k : Nat} (h : lowestKey s.keys = some k) :
    exec (.waitKey x) s = .next { s.setV x (BitVec.ofNat 8 k) with awaitingKey := false } := by
  simp only [exec, execWaitKey, h]

/-! ### The frame of an instruction -/

/-- The parts of the state that an instruction may change, V registers left out. -/
def changedParts : Instr → List Part
  | .cls | .drw _ _ _ => [.fb]
  | .ret => [.pc, .sp, .diag]
  | .call _ => [.pc, .sp, .stack, .diag]
  | .jp _ | .jpV0 _ => [.pc]
  | .seImm _ _ | .sneImm _ _ | .seReg _ _ | .sneReg _ _ | .skp _ | .sknp _ => [.pc]
  | .ldIndex _ | .addIndex _ | .ldGlyph _ => [.index]
  | .waitKey _ => [.awaitingKey, .keyTarget, .pc]
  | .ldDelay _ => [.delayTimer]
  | .ldSound _ => [.soundTimer]
  | .bcd _ | .storeRegs _ => [.memory]
  | _ => []

/-- The V registers an instruction may change: its destination, and VF under an instruction that writes it as a flag. -/
def changedRegs (i : Instr) (r : Reg) : Prop := mayWriteReg i r ∨ (writesFlag i ∧ r = vF)

/-- An instruction changes its own parts and registers and nothing else. -/
theorem exec_frame {i : Instr} {s t : State} (h : exec i s = .next t) :
    Frame (changedRegs i) (changedParts i) s t := by
  cases i with
  | ret =>
    rcases s.sp.eq_zero_or_eq_succ with hempty | ⟨k, hk⟩
    · obtain rfl := Host.Outcome.next.inj ((exec_ret_of_empty hempty).symm.trans h)
      exact (frame_signal s _).mono (fun _ => False.elim) (by decide)
    · obtain rfl := Host.Outcome.next.inj ((exec_ret_of_entry hk).symm.trans h)
      exact (frame_afterReturn s k).mono (fun _ => False.elim) (by decide)
  | call nnn =>
    rcases s.sp.eq_castSucc_or_eq_last with ⟨k, hk⟩ | hfull
    · obtain rfl := Host.Outcome.next.inj ((exec_call_of_room nnn hk).symm.trans h)
      exact (frame_afterCall s k nnn).mono (fun _ => False.elim) (by simp [changedParts])
    · obtain rfl := Host.Outcome.next.inj ((exec_call_of_full nnn hfull).symm.trans h)
      exact (frame_signal s _).mono (fun _ => False.elim) (by simp [changedParts])
  | waitKey x =>
    cases hkey : lowestKey s.keys with
    | none =>
      obtain rfl := Host.Outcome.next.inj ((exec_waitKey_of_none x (lowestKey_eq_none.1 hkey)).symm.trans h)
      exact (frame_wait s _ x).mono (fun _ => False.elim) (List.Subset.refl _)
    | some k =>
      obtain rfl := Host.Outcome.next.inj ((exec_waitKey_of_some x hkey).symm.trans h)
      exact (frame_setV_noWait s x _).mono (fun _ => .inl) (by simp [changedParts])
  | cls =>
    obtain rfl := Host.Outcome.next.inj h
    exact (frame_setFb s _).mono (fun _ => False.elim) (List.Subset.refl _)
  | drw x y n =>
    obtain rfl := Host.Outcome.next.inj h
    exact (frame_setFb_setV s _ vF _).mono (fun _ hr => .inr ⟨trivial, hr⟩) (List.Subset.refl _)
  | jp _ | jpV0 _ =>
    obtain rfl := Host.Outcome.next.inj h
    exact (frame_setPc s _).mono (fun _ => False.elim) (List.Subset.refl _)
  | seImm _ _ | sneImm _ _ | seReg _ _ | sneReg _ _ | skp _ | sknp _ =>
    obtain rfl := Host.Outcome.next.inj h
    exact (frame_skipIf s _).mono (fun _ => False.elim) (List.Subset.refl _)
  | ldImm _ _ | addImm _ _ | ldReg _ _ | orReg _ _ | andReg _ _ | xorReg _ _ | rnd _ _ | ldFromDelay _ =>
    obtain rfl := Host.Outcome.next.inj h
    exact (frame_setV s _ _).mono (fun _ => .inl) (List.Subset.refl _)
  | addReg x _ | subReg x _ | shr x _ | subnReg x _ | shl x _ =>
    obtain rfl := Host.Outcome.next.inj h
    exact (frame_setV_setV s x _ _).mono (fun _ => Or.imp_right (⟨trivial, ·⟩)) (List.Subset.refl _)
  | ldIndex _ | addIndex _ | ldGlyph _ =>
    obtain rfl := Host.Outcome.next.inj h
    exact (frame_setIndex s _).mono (fun _ => False.elim) (List.Subset.refl _)
  | ldDelay _ =>
    obtain rfl := Host.Outcome.next.inj h
    exact (frame_setDelayTimer s _).mono (fun _ => False.elim) (List.Subset.refl _)
  | ldSound _ =>
    obtain rfl := Host.Outcome.next.inj h
    exact (frame_setSoundTimer s _).mono (fun _ => False.elim) (List.Subset.refl _)
  | bcd _ | storeRegs _ =>
    obtain rfl := Host.Outcome.next.inj h
    exact (frame_storeBytes s _ _).mono (fun _ => False.elim) (List.Subset.refl _)
  | loadRegs x =>
    obtain rfl := Host.Outcome.next.inj h
    exact (frame_loadRegs s x).mono (fun _ => .inl) (List.Subset.refl _)
  | unknown w =>
    obtain rfl := Host.Outcome.next.inj h
    exact Frame.refl _ _ _

end Sys2Proof.Machine
end

section
/-! PROOFS. The whole-machine rules about instructions: which of them write memory, the stack, the framebuffer, `I`, `pc`
and the registers (10_state.md R20 to R28, 20_memory.md R68). -/

namespace Sys2Proof.Machine

/-! ### Which instructions have a part among those they may change -/

theorem memory_mem_changedParts {i : Instr} : .memory ∈ changedParts i ↔ storesMemory i := by
  cases i <;> simp [changedParts, storesMemory]

theorem stack_mem_changedParts {i : Instr} (h : .stack ∈ changedParts i) : usesStack i := by
  cases i <;> simp_all [changedParts, usesStack]

theorem sp_mem_changedParts {i : Instr} : .sp ∈ changedParts i ↔ usesStack i := by
  cases i <;> simp [changedParts, usesStack]

theorem fb_mem_changedParts {i : Instr} : .fb ∈ changedParts i ↔ writesFrameBuffer i := by
  cases i <;> simp [changedParts, writesFrameBuffer]

theorem index_mem_changedParts {i : Instr} : .index ∈ changedParts i ↔ writesIndex i := by
  cases i <;> simp [changedParts, writesIndex]

theorem pc_mem_changedParts {i : Instr} : .pc ∈ changedParts i ↔ changesPc i := by
  cases i <;> simp [changedParts, changesPc]

/-- Settles O37: memory is among the parts of FX33 and FX55 alone. -/
theorem onlyStoresWriteMemory : Obligations.OnlyStoresWriteMemory :=
  fun _ _ _ h hi => (exec_frame h).same (p := .memory) (mt memory_mem_changedParts.1 hi)

/-- Settles O38: the stack, the framebuffer and `I` are among the parts of the instructions named alone. -/
theorem stackFramebufferAndIndexWriters : Obligations.StackFramebufferAndIndexWriters := by
  intro i s t h
  have hframe := exec_frame h
  refine ⟨fun hi => ⟨?_, ?_⟩, fun hi => ?_, fun hi => ?_⟩
  · exact hframe.same (p := .stack) (mt stack_mem_changedParts hi)
  · exact hframe.same (p := .sp) (mt sp_mem_changedParts.1 hi)
  · exact hframe.same (p := .fb) (mt fb_mem_changedParts.1 hi)
  · exact hframe.same (p := .index) (mt index_mem_changedParts.1 hi)

/-- Settles O39: `pc` is among the parts of the instructions named alone. -/
theorem onlyControlInstructionsChangePc : Obligations.OnlyControlInstructionsChangePc :=
  fun _ _ _ h hi => (exec_frame h).same (p := .pc) (mt pc_mem_changedParts.1 hi)

/-! ### Flags are 0 or 1 (R21) -/

theorem flagByte_cases (c : Bool) : flagByte c = 0#8 ∨ flagByte c = 1#8 := by
  cases c
  · exact .inl rfl
  · exact .inr rfl

/-- The bit a right shift moves out is the lowest (R169). -/
theorem lowBitFlag_toNat (a : Byte) : (lowBitFlag a).toNat = a.toNat % 2 := by
  rw [lowBitFlag, BitVec.toNat_and]
  exact Nat.and_one_is_mod _

/-- The bit a left shift moves out is the highest (R171). -/
theorem highBitFlag_toNat (a : Byte) : (highBitFlag a).toNat = a.toNat / 128 := by
  have hlt := a.isLt
  rw [highBitFlag, BitVec.toNat_ushiftRight, BitVec.toNat_and, Nat.shiftRight_and_distrib, Nat.shiftRight_eq_div_pow]
  have hbit : a.toNat / 2 ^ 7 &&& 1 = a.toNat / 2 ^ 7 % 2 := Nat.and_one_is_mod _
  exact hbit.trans (Nat.mod_eq_of_lt (by omega))

theorem byte_cases_of_lt_two {b : Byte} (h : b.toNat < 2) : b = 0#8 ∨ b = 1#8 := by
  bv_omega

theorem lowBitFlag_cases (a : Byte) : lowBitFlag a = 0#8 ∨ lowBitFlag a = 1#8 :=
  byte_cases_of_lt_two (by rw [lowBitFlag_toNat]; omega)

theorem highBitFlag_cases (a : Byte) : highBitFlag a = 0#8 ∨ highBitFlag a = 1#8 :=
  byte_cases_of_lt_two (by have := a.isLt; rw [highBitFlag_toNat]; omega)

/-- The flag stays in VF when the result goes to another register (R160). -/
theorem State.getV_vF_setV {x : Reg} (s : State) (f b : Byte) (hx : x ≠ vF) :
    ((s.setV vF f).setV x b).getV vF = f := by
  rw [State.getV_setV_of_ne _ _ hx.symm, State.getV_setV_same]

/-- VF written as a flag only is 0 or 1 (R21). -/
theorem exec_flag_cases {i : Instr} {s t : State} (h : exec i s = .next t) (hi : writesFlag i)
    (hdest : ¬ mayWriteReg i vF) : t.getV vF = 0#8 ∨ t.getV vF = 1#8 := by
  cases i with
  | addReg x y | subReg x y | subnReg x y =>
    obtain rfl := Host.Outcome.next.inj h
    rw [State.getV_vF_setV s _ _ (Ne.symm hdest)]
    exact flagByte_cases _
  | shr x y =>
    obtain rfl := Host.Outcome.next.inj h
    rw [State.getV_vF_setV s _ _ (Ne.symm hdest)]
    exact lowBitFlag_cases _
  | shl x y =>
    obtain rfl := Host.Outcome.next.inj h
    rw [State.getV_vF_setV s _ _ (Ne.symm hdest)]
    exact highBitFlag_cases _
  | drw x y n =>
    obtain rfl := Host.Outcome.next.inj h
    rw [State.getV_setV_same]
    exact flagByte_cases _
  | _ => exact hi.elim

/-- Settles O40: the registers of an instruction's frame are its destination and its flag, and each flag is 0 or 1. -/
theorem registerAndFlagWriters : Obligations.RegisterAndFlagWriters :=
  fun _ _ _ h => ⟨fun _ hdest hflag => (exec_frame h).getV_eq (not_or.2 ⟨hdest, hflag⟩), exec_flag_cases h⟩

end Sys2Proof.Machine
end

section
/-! PROOFS. The events of the host, and the invariants that every event keeps (40_step_cycle.md R120 to R126,
60_exceptions.md R250, 70_reset_and_hazards.md R270 to R276). -/

namespace Sys2Proof.Machine

/-! ### The reset and the load as events -/

theorem step_of_reset {s : State} {rest : List HostEvent} (h : s.agenda = .reset :: rest) :
    step s = .next { State.resetWith s.font with agenda := rest, clock := s.clock + 1 } := by
  rw [step, State.takeEvent_of_agenda h]
  exact perform_of_inOrder (e := .reset) rfl

/-- The event taken when the load of this run comes next, from the agenda or with the free image. -/
theorem State.takeEvent_of_loadsWith {s : State} {bytes : List Byte} {rest : List HostEvent}
    (h : s.loadsWith bytes rest) :
    s.takeEvent = (.load bytes, { s with agenda := rest, clock := s.clock + 1 }) := by
  obtain ⟨hloaded, -, hlisted | ⟨hnil, rfl, rfl⟩⟩ := h
  · exact State.takeEvent_of_agenda hlisted
  · simp only [State.takeEvent, hnil, State.unlistedEvent, hloaded, Bool.false_eq_true, if_false]

/-- The load event of a run is the load, after the taking of the event (R274 to R276). -/
theorem step_of_loadsWith {s : State} {bytes : List Byte} {rest : List HostEvent} (h : s.loadsWith bytes rest) :
    step s = .next (State.load { s with agenda := rest, clock := s.clock + 1 } bytes) := by
  rw [step, State.takeEvent_of_loadsWith h]
  exact perform_of_inOrder (State.bootBreach_load h.1 h.2.1 bytes)

theorem State.load_of_le (s : State) {bytes : List Byte} (h : bytes.length ≤ 3584) :
    s.load bytes = { s.storeBytes 512 bytes with loadStatus := .accepted, loaded := true } := if_pos h

theorem State.load_of_gt (s : State) {bytes : List Byte} (h : bytes.length > 3584) :
    s.load bytes = { s with loadStatus := .programTooLarge, loaded := true } := if_neg (Nat.not_le.2 h)

/-- The record of a load changes two fields (R274, R275). -/
theorem frame_loadRecord (s : State) (status : LoadStatus) :
    Frame noReg [.loadStatus, .loaded] s { s with loadStatus := status, loaded := true } := by
  refine ⟨fun _ _ => rfl, fun _ _ => rfl, ?_⟩
  simp

/-- A load changes memory and its own record alone (R274). -/
theorem frame_load (s : State) (bytes : List Byte) :
    Frame noReg [.memory, .loadStatus, .loaded] s (s.load bytes) := by
  by_cases h : bytes.length ≤ 3584
  · rw [State.load_of_le s h]
    exact ((frame_storeBytes s 512 bytes).mono (fun _ => id) (by decide)).trans
      ((frame_loadRecord _ _).mono (fun _ => id) (by decide))
  · rw [State.load_of_gt s (Nat.not_le.1 h)]
    exact (frame_loadRecord _ _).mono (fun _ => id) (by decide)

@[simp] theorem State.load_loaded (s : State) (bytes : List Byte) : (s.load bytes).loaded = true := by
  unfold State.load
  split <;> rfl

/-! ### The start of a step -/

/-- The start of a step changes its own parts and `pc` (R120). -/
theorem frame_inStep (s : State) (keys : Keys) (rnd : Byte) (rest : List HostEvent) :
    Frame noReg (.pc :: stepParts) s (s.inStep keys rnd rest) := by
  refine ⟨fun _ _ => rfl, fun _ _ => rfl, ?_⟩
  simp [stepParts, State.inStep, State.beginStep]

/-- Settles O7: a step event is the execution of the decoded instruction after the step's own part. -/
theorem stepRunsTheDecodedInstruction : Obligations.StepRunsTheDecodedInstruction := by
  intro s keys rnd rest i h hi
  rw [← hi]
  exact ⟨step_of_stepsWith h, rfl, rfl, rfl, rfl, rfl, frame_inStep s keys rnd rest⟩

/-! ### Every event completes, or breaches the boot order by name -/

theorem exec_completes (i : Instr) (s : State) : ∃ t, exec i s = .next t := by
  cases i <;> exact ⟨_, rfl⟩

theorem perform_completes {e : HostEvent} {s : State} (h : s.bootBreach e = none) : ∃ t, perform e s = .next t := by
  rw [perform_of_inOrder h]
  cases e with
  | step keys rnd => exact exec_completes _ _
  | reset | load _ | tick => exact ⟨_, rfl⟩

theorem perform_of_breach {e : HostEvent} {s : State} {r : Refusal} (h : s.bootBreach e = some r) :
    perform e s = .refused r := by
  simp only [perform, h]

/-- Each name of a breach, with what it says of the state (R275, R276). -/
theorem State.bootBreach_cases {s : State} {e : HostEvent} {r : Refusal} (h : s.bootBreach e = some r) :
    (r = .steppedBeforeLoad ∧ s.loaded = false) ∨
    (r = .steppedAfterRefusedLoad ∧ s.loadStatus = .programTooLarge) ∨
    (r = .tickedOutOfOrder ∧ ¬ s.running) ∨
    (r = .loadedTwice ∧ s.loaded = true) ∨
    (r = .loadAfterFirstStep ∧ s.started = true) := by
  cases e with
  | reset => cases h
  | load bytes =>
    cases hstarted : s.started <;> cases hloaded : s.loaded <;> simp_all [State.bootBreach]
  | step keys rnd =>
    cases hloaded : s.loaded <;> cases hstatus : s.loadStatus <;> simp_all [State.bootBreach]
  | tick =>
    by_cases hrun : s.running
    · rw [(State.bootBreach_running hrun 0 0).2] at h
      cases h
    · have hbreach : s.bootBreach .tick = some .tickedOutOfOrder := if_neg hrun
      rw [hbreach] at h
      exact .inr (.inr (.inl ⟨(Option.some.inj h).symm, hrun⟩))

/-- Taking an event changes the agenda and the count of events (R33). -/
theorem State.takeEvent_state (s : State) :
    s.takeEvent.2 = { s with agenda := s.agenda.tail, clock := s.clock + 1 } := by
  unfold State.takeEvent
  split
  next hnil => simp [hnil]
  next hcons => rw [hcons]; rfl

/-- Settles O10: every meaning answers a next state, so an event in order does, and an event out of order is refused with the
name of its breach, whose condition the taking of the event left alone. -/
theorem everyInstructionCompletes : Obligations.EveryInstructionCompletes := by
  refine ⟨exec_completes, fun s keys rnd rest h => ?_, fun s => ?_⟩
  · rw [step_of_stepsWith h]
    exact exec_completes _ _
  · cases hbreach : s.takeEvent.2.bootBreach s.takeEvent.1 with
    | none => exact .inl (perform_completes hbreach)
    | some r =>
      have hcases := State.bootBreach_cases hbreach
      have hstep : step s = .refused r := perform_of_breach hbreach
      rw [s.takeEvent_state] at hcases
      rw [hstep]
      rcases hcases with ⟨rfl, h⟩ | ⟨rfl, h⟩ | ⟨rfl, h⟩ | ⟨rfl, h⟩ | ⟨rfl, h⟩
      · exact .inr (.inl ⟨rfl, h⟩)
      · exact .inr (.inr (.inl ⟨rfl, h⟩))
      · exact .inr (.inr (.inr (.inl ⟨rfl, h⟩)))
      · exact .inr (.inr (.inr (.inr (.inl ⟨rfl, h⟩))))
      · exact .inr (.inr (.inr (.inr (.inr ⟨rfl, h⟩))))

/-! ### Memory stays canonical -/

theorem exec_keeps_memoryCanonical {i : Instr} {s t : State} (hs : s.MemoryCanonical) (h : exec i s = .next t) :
    t.MemoryCanonical := by
  cases i with
  | bcd _ | storeRegs _ =>
    obtain rfl := Host.Outcome.next.inj h
    rw [State.MemoryCanonical, State.storeBytes_font]
    exact State.storeBytes_wf hs _ _
  | ret =>
    rcases s.sp.eq_zero_or_eq_succ with hempty | ⟨k, hk⟩
    · obtain rfl := Host.Outcome.next.inj ((exec_ret_of_empty hempty).symm.trans h)
      exact hs
    · obtain rfl := Host.Outcome.next.inj ((exec_ret_of_entry hk).symm.trans h)
      exact hs
  | call nnn =>
    rcases s.sp.eq_castSucc_or_eq_last with ⟨k, hk⟩ | hfull
    · obtain rfl := Host.Outcome.next.inj ((exec_call_of_room nnn hk).symm.trans h)
      exact hs
    · obtain rfl := Host.Outcome.next.inj ((exec_call_of_full nnn hfull).symm.trans h)
      exact hs
  | waitKey x =>
    cases hkey : lowestKey s.keys with
    | none =>
      obtain rfl := Host.Outcome.next.inj ((exec_waitKey_of_none x (lowestKey_eq_none.1 hkey)).symm.trans h)
      exact hs
    | some k =>
      obtain rfl := Host.Outcome.next.inj ((exec_waitKey_of_some x hkey).symm.trans h)
      exact hs
  | seImm _ _ | sneImm _ _ | seReg _ _ | sneReg _ _ | skp _ | sknp _ =>
    obtain rfl := Host.Outcome.next.inj h
    rw [State.skipIf_eq]
    exact hs
  | loadRegs _ =>
    obtain rfl := Host.Outcome.next.inj h
    rw [State.loadV_eq]
    exact hs
  | _ =>
    obtain rfl := Host.Outcome.next.inj h
    exact hs

theorem State.load_keeps_memoryCanonical {s : State} (hs : s.MemoryCanonical) (bytes : List Byte) :
    (s.load bytes).MemoryCanonical := by
  by_cases h : bytes.length ≤ 3584
  · rw [State.load_of_le s h, State.MemoryCanonical]
    simp only [State.storeBytes_font]
    exact State.storeBytes_wf hs _ _
  · rw [State.load_of_gt s (Nat.not_le.1 h)]
    exact hs

theorem memoryCanonical_resetWith (font : FontTable) : (State.resetWith font).MemoryCanonical :=
  ⟨List.Pairwise.nil, fun _ h => absurd h List.not_mem_nil⟩

/-- Settles O44: memory changes by stores alone, an instruction's or a load's, and a store keeps the canonical form. -/
theorem everyEventKeepsMemoryCanonical : Obligations.EveryEventKeepsMemoryCanonical := by
  intro s t hs h
  rcases step_cases h with ⟨keys, rnd, rest, -, -, hexec⟩ | ⟨rest, -, -, rfl⟩ | ⟨rest, -, rfl⟩ | ⟨bytes, rest, -, -, rfl⟩
  · exact exec_keeps_memoryCanonical (s := s.inStep keys rnd rest) hs hexec
  · exact hs
  · exact memoryCanonical_resetWith s.font
  · exact State.load_keeps_memoryCanonical (s := { s with agenda := rest, clock := s.clock + 1 }) hs bytes

/-! ### The wait stays at its instruction -/

theorem awaitingKey_mem_changedParts {i : Instr} : .awaitingKey ∈ changedParts i ↔ ∃ x, i = .waitKey x := by
  cases i <;> simp [changedParts]

/-- A step that records a wait goes back to the word it has fetched (R221). -/
theorem awaits_of_step_waitKey {s t : State} {keys : Keys} {rnd : Byte} {rest : List HostEvent} {x : Reg}
    (hdecode : decode s.fetchWord = .waitKey x) (h : exec (.waitKey x) (s.inStep keys rnd rest) = .next t) :
    t.AwaitsAtItsInstruction := by
  cases hkey : lowestKey keys with
  | none =>
    have hwait := exec_waitKey_of_none (s := s.inStep keys rnd rest) x (lowestKey_eq_none.1 hkey)
    obtain rfl := Host.Outcome.next.inj (hwait.symm.trans h)
    have hpc : s.pc + 2 - 2 = s.pc := BitVec.add_sub_cancel _ _
    have hframe := frame_inStep_setPc s keys rnd rest
    refine fun _ => ⟨rfl, ?_⟩
    rw [← hdecode, ← hframe.fetchWord_eq (by decide) (by decide), ← hpc]
    rfl
  | some k =>
    obtain rfl := Host.Outcome.next.inj ((exec_waitKey_of_some (s := s.inStep keys rnd rest) x hkey).symm.trans h)
    exact fun hawaits => nomatch hawaits

/-- Settles O45: an FX0A that waits goes back onto its own word, and while a wait is recorded the next step is that FX0A, so
no other instruction, and no load, finds a wait. -/
theorem everyEventKeepsTheWaitAtItsInstruction : Obligations.EveryEventKeepsTheWaitAtItsInstruction := by
  intro s t hs h
  rcases step_cases h with ⟨keys, rnd, rest, -, -, hexec⟩ | ⟨rest, -, -, rfl⟩ | ⟨rest, -, rfl⟩ |
    ⟨bytes, rest, ⟨-, hstarted, -⟩, -, rfl⟩
  · by_cases hwait : ∃ x, decode s.fetchWord = .waitKey x
    · obtain ⟨x, hx⟩ := hwait
      rw [hx] at hexec
      exact awaits_of_step_waitKey hx hexec
    · intro hawaits
      have hsame := (exec_frame hexec).same (p := .awaitingKey) (mt awaitingKey_mem_changedParts.1 hwait)
      exact absurd ⟨_, (hs (hsame.symm.trans hawaits)).2⟩ hwait
  · exact hs
  · exact fun hawaits => nomatch hawaits
  · intro hawaits
    have hsame := (frame_load { s with agenda := rest, clock := s.clock + 1 } bytes).same (p := .awaitingKey) (by decide)
    exact absurd (hs (hsame.symm.trans hawaits)).1 (by simp [hstarted])

/-! ### The diagnostic matches the stack -/

/-- Settles O46: a step clears `diag` first, and a call or return that then sets it leaves `sp` where it found it. -/
theorem everyEventKeepsDiagMatchingStack : Obligations.EveryEventKeepsDiagMatchingStack := by
  intro s t hs h
  rcases step_cases h with ⟨keys, rnd, rest, -, -, hexec⟩ | ⟨rest, -, -, rfl⟩ | ⟨rest, -, rfl⟩ | ⟨bytes, rest, -, -, rfl⟩
  · rcases exec_diag_cases hexec with ⟨⟨hempty, hret⟩, -⟩ | ⟨⟨hfull, nnn, hcall⟩, -⟩ | ⟨-, -, hnone⟩
    · rw [hret, exec_ret_of_empty hempty] at hexec
      obtain rfl := Host.Outcome.next.inj hexec
      exact ⟨fun hd => (nomatch hd), fun _ => hempty⟩
    · rw [hcall, exec_call_of_full nnn hfull] at hexec
      obtain rfl := Host.Outcome.next.inj hexec
      exact ⟨fun _ => hfull, fun hd => nomatch hd⟩
    · exact ⟨fun hd => (nomatch hnone.symm.trans hd), fun hd => (nomatch hnone.symm.trans hd)⟩
  · exact hs
  · exact ⟨fun hd => (nomatch hd), fun hd => nomatch hd⟩
  · have hframe := frame_load { s with agenda := rest, clock := s.clock + 1 } bytes
    have hdiag := hframe.same (p := .diag) (by decide)
    have hsp := hframe.same (p := .sp) (by decide)
    exact ⟨fun hd => hsp.trans (hs.1 (hdiag.symm.trans hd)), fun hd => hsp.trans (hs.2 (hdiag.symm.trans hd))⟩

/-! ### The boot order -/

/-- An instruction leaves a running machine running (R276). -/
theorem exec_running {i : Instr} {s t : State} (hs : s.running) (h : exec i s = .next t) : t.running := by
  have hfields := exec_driverFields h
  simp only [State.driverFields, Prod.mk.injEq] at hfields
  obtain ⟨hstatus, -, -, -, -, -, hloaded, -⟩ := hfields
  exact ⟨hloaded.trans hs.1, hstatus.trans hs.2⟩

theorem State.bootOrder_of_running {s : State} (h : s.running) : s.BootOrder :=
  ⟨fun hloaded => (nomatch h.1.symm.trans hloaded), fun _ => h⟩

/-- Settles O47: a step and a tick come on a running machine and leave it running, a reset begins the order anew, and a load
comes before the first step. -/
theorem everyEventKeepsTheBootOrder : Obligations.EveryEventKeepsTheBootOrder := by
  intro s t hs h
  rcases step_cases h with ⟨keys, rnd, rest, hsteps, -, hexec⟩ | ⟨rest, -, hrun, rfl⟩ | ⟨rest, -, rfl⟩ |
    ⟨bytes, rest, ⟨-, hnotStarted, -⟩, -, rfl⟩
  · exact State.bootOrder_of_running (exec_running (s := s.inStep keys rnd rest) hsteps.1 hexec)
  · exact State.bootOrder_of_running hrun
  · exact ⟨fun _ => rfl, fun hstarted => nomatch hstarted⟩
  · have hsame := (frame_load { s with agenda := rest, clock := s.clock + 1 } bytes).same (p := .started) (by decide)
    refine ⟨fun hloaded => ?_, fun hstarted => ?_⟩
    · rw [State.load_loaded] at hloaded
      cases hloaded
    · exact nomatch hnotStarted.symm.trans (hsame.symm.trans hstarted)

/-! ### The open parameter FONT, and the reset state -/

/-- Settles O48: no instruction, tick or load touches FONT, and a reset takes over the machine's own. -/
theorem noEventChangesTheFontParameter : Obligations.NoEventChangesTheFontParameter := by
  intro s t h
  rcases step_cases h with ⟨keys, rnd, rest, -, -, hexec⟩ | ⟨rest, -, -, rfl⟩ | ⟨rest, -, rfl⟩ | ⟨bytes, rest, -, -, rfl⟩
  · have hfields := exec_driverFields hexec
    simp only [State.driverFields, Prod.mk.injEq] at hfields
    obtain ⟨-, -, -, -, -, -, -, hfont⟩ := hfields
    exact hfont
  · rfl
  · rfl
  · exact (frame_load { s with agenda := rest, clock := s.clock + 1 } bytes).same (p := .font) (by decide)

/-- Settles O49: right after reset memory lists nothing, no key is awaited, `diag` is None and no step has happened. -/
theorem invariantsHoldAtReset : Obligations.InvariantsHoldAtReset :=
  ⟨rfl, fun font => ⟨memoryCanonical_resetWith font, fun h => (nomatch h), ⟨fun h => (nomatch h), fun h => nomatch h⟩,
    fun _ => rfl, fun h => nomatch h⟩⟩

/-! ### The timers rise by opcode only -/

theorem delayTimer_mem_changedParts {i : Instr} : .delayTimer ∈ changedParts i ↔ ∃ x, i = .ldDelay x := by
  cases i <;> simp [changedParts]

theorem soundTimer_mem_changedParts {i : Instr} : .soundTimer ∈ changedParts i ↔ ∃ x, i = .ldSound x := by
  cases i <;> simp [changedParts]

theorem countDown_le (t : Byte) : (countDown t).toNat ≤ t.toNat := by
  rw [countDown_toNat]
  split <;> omega

/-- Settles O41: a timer is among the parts of one instruction each; a tick counts down, a reset clears and a load leaves
the timers. -/
theorem timersRiseByOpcodeOnly : Obligations.TimersRiseByOpcodeOnly := by
  intro s t h
  rcases step_cases h with ⟨keys, rnd, rest, -, hevent, hexec⟩ | ⟨rest, -, -, rfl⟩ | ⟨rest, -, rfl⟩ |
    ⟨bytes, rest, -, -, rfl⟩
  · have hframe := exec_frame hexec
    have hstep : s.takeEvent.1.isStep = true := by rw [hevent]; rfl
    constructor
    · by_cases hi : ∃ x, decode s.fetchWord = .ldDelay x
      · exact .inr (hi.imp fun _ hx => ⟨hstep, hx⟩)
      · have hsame := hframe.same (p := .delayTimer) (mt delayTimer_mem_changedParts.1 hi)
        exact .inl (congrArg BitVec.toNat hsame).le
    · by_cases hi : ∃ x, decode s.fetchWord = .ldSound x
      · exact .inr (hi.imp fun _ hx => ⟨hstep, hx⟩)
      · have hsame := hframe.same (p := .soundTimer) (mt soundTimer_mem_changedParts.1 hi)
        exact .inl (congrArg BitVec.toNat hsame).le
  · exact ⟨.inl (countDown_le _), .inl (countDown_le _)⟩
  · exact ⟨.inl (Nat.zero_le _), .inl (Nat.zero_le _)⟩
  · have hframe := frame_load { s with agenda := rest, clock := s.clock + 1 } bytes
    have hdelay := hframe.same (p := .delayTimer) (by decide)
    have hsound := hframe.same (p := .soundTimer) (by decide)
    exact ⟨.inl (congrArg BitVec.toNat hdelay).le, .inl (congrArg BitVec.toNat hsound).le⟩

end Sys2Proof.Machine
end

section
/-! PROOFS. What flows nowhere: the wait record and the sound timer (10_state.md R27, R29, 40_step_cycle.md R126). -/

namespace Sys2Proof.Machine

/-! ### Other values of the unread fields -/

/-- The state with another wait record and another sound timer. -/
def State.withUnread (s : State) (b : Bool) (k : Reg) (d : Byte) : State :=
  { s with awaitingKey := b, keyTarget := k, soundTimer := d }

section
variable (s : State) (b : Bool) (k : Reg) (d : Byte)

theorem State.skipIf_withUnread (c : Bool) : (s.withUnread b k d).skipIf c = (s.skipIf c).withUnread b k d := by
  cases c <;> rfl

theorem State.storeBytes_withUnread (a : Nat) (bs : List Byte) :
    (s.withUnread b k d).storeBytes a bs = (s.storeBytes a bs).withUnread b k d := by
  induction bs generalizing s a with
  | nil => rfl
  | cons c bs ih => exact ih (s.writeByte a c) (a + 1)

theorem State.loadV_withUnread (n : Nat) (bs : List Byte) :
    (s.withUnread b k d).loadV n bs = (s.loadV n bs).withUnread b k d := by
  induction bs generalizing s n with
  | nil => rfl
  | cons c bs ih => exact ih (s.setV _ c) (n + 1)

theorem State.load_withUnread (bytes : List Byte) :
    (s.withUnread b k d).load bytes = (s.load bytes).withUnread b k d := by
  by_cases h : bytes.length ≤ 3584
  · rw [State.load_of_le _ h, State.load_of_le _ h, State.storeBytes_withUnread]
    rfl
  · rw [State.load_of_gt _ (Nat.not_le.1 h), State.load_of_gt _ (Nat.not_le.1 h)]
    rfl

end

/-- An instruction other than FX0A and FX18 passes other values of the unread fields through to its next state. -/
theorem exec_withUnread {i : Instr} {s t : State} (hwait : ¬ ∃ x, i = .waitKey x) (hsound : ¬ ∃ x, i = .ldSound x)
    (h : exec i s = .next t) (b : Bool) (k : Reg) (d : Byte) :
    exec i (s.withUnread b k d) = .next (t.withUnread b k d) := by
  cases i with
  | waitKey x => exact absurd ⟨x, rfl⟩ hwait
  | ldSound x => exact absurd ⟨x, rfl⟩ hsound
  | ret =>
    rcases s.sp.eq_zero_or_eq_succ with hempty | ⟨j, hj⟩
    · obtain rfl := Host.Outcome.next.inj ((exec_ret_of_empty hempty).symm.trans h)
      exact exec_ret_of_empty (s := s.withUnread b k d) hempty
    · obtain rfl := Host.Outcome.next.inj ((exec_ret_of_entry hj).symm.trans h)
      exact exec_ret_of_entry (s := s.withUnread b k d) hj
  | call nnn =>
    rcases s.sp.eq_castSucc_or_eq_last with ⟨j, hj⟩ | hfull
    · obtain rfl := Host.Outcome.next.inj ((exec_call_of_room nnn hj).symm.trans h)
      exact exec_call_of_room (s := s.withUnread b k d) nnn hj
    · obtain rfl := Host.Outcome.next.inj ((exec_call_of_full nnn hfull).symm.trans h)
      exact exec_call_of_full (s := s.withUnread b k d) nnn hfull
  | seImm _ _ | sneImm _ _ | seReg _ _ | sneReg _ _ | skp _ | sknp _ =>
    obtain rfl := Host.Outcome.next.inj h
    exact congrArg _ (State.skipIf_withUnread _ _ _ _ _)
  | bcd _ | storeRegs _ =>
    obtain rfl := Host.Outcome.next.inj h
    exact congrArg _ (State.storeBytes_withUnread _ _ _ _ _ _)
  | loadRegs _ =>
    obtain rfl := Host.Outcome.next.inj h
    exact congrArg _ (State.loadV_withUnread _ _ _ _ _ _)
  | _ =>
    obtain rfl := Host.Outcome.next.inj h
    rfl

theorem keyTarget_mem_changedParts {i : Instr} : .keyTarget ∈ changedParts i ↔ ∃ x, i = .waitKey x := by
  cases i <;> simp [changedParts]

/-! ### Two runs that differ in the unread fields -/

/-- Two states that differ at most in the wait record, where `wait` allows it, and the sound timer, where `sound` does. -/
def SameUnless (wait sound : Bool) (s s' : State) : Prop :=
  ∃ b k d, s' = s.withUnread b k d ∧ (wait = false → b = s.awaitingKey ∧ k = s.keyTarget) ∧
    (sound = false → d = s.soundTimer)

theorem SameUnless.waitRecord (s : State) (b : Bool) (k : Reg) :
    SameUnless true false s { s with awaitingKey := b, keyTarget := k } :=
  ⟨b, k, s.soundTimer, rfl, fun h => (nomatch h), fun _ => rfl⟩

theorem SameUnless.soundTimer (s : State) (d : Byte) : SameUnless false true s { s with soundTimer := d } :=
  ⟨s.awaitingKey, s.keyTarget, d, rfl, fun _ => ⟨rfl, rfl⟩, fun h => nomatch h⟩

section
variable {wait sound : Bool} {s s' t : State}

/-- An instruction answers in both states, and its next states differ in the same fields at most: FX0A and FX18 write
what they do not read. -/
theorem exec_sameUnless {i : Instr} (hs : SameUnless wait sound s s') (h : exec i s = .next t) :
    ∃ t', exec i s' = .next t' ∧ SameUnless wait sound t t' := by
  obtain ⟨b, k, d, rfl, hwait, hsound⟩ := hs
  by_cases hi : ∃ x, i = .waitKey x
  · obtain ⟨x, rfl⟩ := hi
    cases hkey : lowestKey s.keys with
    | none =>
      have hnone := lowestKey_eq_none.1 hkey
      obtain rfl := Host.Outcome.next.inj ((exec_waitKey_of_none x hnone).symm.trans h)
      exact ⟨_, exec_waitKey_of_none (s := s.withUnread b k d) x hnone, true, x, d, rfl, fun _ => ⟨rfl, rfl⟩, hsound⟩
    | some j =>
      obtain rfl := Host.Outcome.next.inj ((exec_waitKey_of_some x hkey).symm.trans h)
      exact ⟨_, exec_waitKey_of_some (s := s.withUnread b k d) x hkey, false, k, d, rfl,
        fun hw => ⟨rfl, (hwait hw).2⟩, hsound⟩
  · by_cases hi' : ∃ x, i = .ldSound x
    · obtain ⟨x, rfl⟩ := hi'
      obtain rfl := Host.Outcome.next.inj h
      exact ⟨_, rfl, b, k, s.getV x, rfl, hwait, fun _ => rfl⟩
    · have hframe := exec_frame h
      have hawaiting : t.awaitingKey = s.awaitingKey :=
        hframe.same (p := .awaitingKey) (mt awaitingKey_mem_changedParts.1 hi)
      have htarget : t.keyTarget = s.keyTarget := hframe.same (p := .keyTarget) (mt keyTarget_mem_changedParts.1 hi)
      have htimer : t.soundTimer = s.soundTimer := hframe.same (p := .soundTimer) (mt soundTimer_mem_changedParts.1 hi')
      refine ⟨_, exec_withUnread hi hi' h b k d, b, k, d, rfl, ?_, ?_⟩
      · rwa [hawaiting, htarget]
      · rwa [htimer]

theorem State.load_sameUnless (hs : SameUnless wait sound s s') (bytes : List Byte) :
    SameUnless wait sound (s.load bytes) (s'.load bytes) := by
  obtain ⟨b, k, d, rfl, hwait, hsound⟩ := hs
  have hframe := frame_load s bytes
  have hawaiting : (s.load bytes).awaitingKey = s.awaitingKey := hframe.same (p := .awaitingKey) (by decide)
  have htarget : (s.load bytes).keyTarget = s.keyTarget := hframe.same (p := .keyTarget) (by decide)
  have htimer : (s.load bytes).soundTimer = s.soundTimer := hframe.same (p := .soundTimer) (by decide)
  refine ⟨b, k, d, State.load_withUnread s b k d bytes, ?_, ?_⟩
  · rwa [hawaiting, htarget]
  · rwa [htimer]

/-- So does an event: a tick counts each sound timer down, and a reset writes the fields anew. -/
theorem step_sameUnless (hs : SameUnless wait sound s s') (h : step s = .next t) :
    ∃ t', step s' = .next t' ∧ SameUnless wait sound t t' := by
  obtain ⟨b, k, d, rfl, hwait, hsound⟩ := hs
  rcases step_cases h with ⟨keys, rnd, rest, hsteps, -, hexec⟩ | ⟨rest, hagenda, hrun, rfl⟩ | ⟨rest, hagenda, rfl⟩ |
    ⟨bytes, rest, hload, -, rfl⟩
  · have hstart : SameUnless wait sound (s.inStep keys rnd rest) ((s.withUnread b k d).inStep keys rnd rest) :=
      ⟨b, k, d, rfl, hwait, hsound⟩
    rw [step_of_stepsWith (s := s.withUnread b k d) hsteps]
    exact exec_sameUnless hstart hexec
  · exact ⟨_, step_of_tick (s := s.withUnread b k d) hrun hagenda, b, k, countDown d, rfl, hwait,
      fun h => congrArg countDown (hsound h)⟩
  · exact ⟨_, step_of_reset (s := s.withUnread b k d) hagenda, false, 0#4, 0#8, rfl, fun _ => ⟨rfl, rfl⟩, fun _ => rfl⟩
  · exact ⟨_, step_of_loadsWith (s := s.withUnread b k d) hload,
      State.load_sameUnless (s := { s with agenda := rest, clock := s.clock + 1 }) ⟨b, k, d, rfl, hwait, hsound⟩ bytes⟩

end

/-- Settles O42: with the sound timer the same, the states after an event differ in the wait record at most. -/
theorem awaitingKeyGatesNothing : Obligations.AwaitingKeyGatesNothing := by
  intro s t b k h
  obtain ⟨_, hstep, _, _, _, rfl, -, hsound⟩ := step_sameUnless (.waitRecord s b k) h
  exact ⟨_, hstep, by rw [hsound rfl]; rfl⟩

/-- Settles O43: with the wait record the same, the states after an event differ in the sound timer at most. -/
theorem soundTimerIsNeverRead : Obligations.SoundTimerIsNeverRead := by
  intro s t d h
  obtain ⟨_, hstep, _, _, _, rfl, hwait, -⟩ := step_sameUnless (.soundTimer s d) h
  obtain ⟨rfl, rfl⟩ := hwait rfl
  exact ⟨_, hstep, rfl⟩

end Sys2Proof.Machine
end

section
/-! PROOFS. Control transfer and the fetch: calls and returns, the indexed jump, unknown opcodes, and a store over the next
instruction (20_memory.md R65, R73; 30_encoding.md R98; 41_control_flow.md R141, R143, R148). -/

namespace Sys2Proof.Machine

/-! ### The fetch -/

theorem wordOfBytes_toNat (b0 b1 : Byte) : (wordOfBytes b0 b1).toNat = b0.toNat * 256 + b1.toNat := toNat_append_eq b0 b1

/-- Settles O8: a fetched word is its two bytes, the first the more significant, and each read reduces its address. -/
theorem fetchIsTwoReducedBytes : Obligations.FetchIsTwoReducedBytes := fun _ => wordOfBytes_toNat _ _

/-- Settles O9: the two addresses of the fetch are the effective addresses of offsets `k` and `k + 1`, where FX55 has put the
two registers. -/
theorem storedBytesAreFetchedNext : Obligations.StoredBytesAreFetchedNext := by
  intro s x k hk haddr
  have hpc : (s.storeBytes s.index.toNat (s.regsUpTo x)).pc = s.pc := (frame_storeBytes s _ _).same (p := .pc) (by decide)
  have haddr' : (s.pc.toNat + 1) % 4096 = s.effectiveAddr (k + 1) := by
    unfold State.effectiveAddr at haddr ⊢
    omega
  refine ⟨_, rfl, hpc, ?_⟩
  rw [State.fetchWord, hpc, ← State.readByte_mod _ s.pc.toNat, ← State.readByte_mod _ (s.pc.toNat + 1), haddr, haddr',
    readByte_storeRegs s x hk.le, readByte_storeRegs s x hk]

/-! ### Calls and returns -/

/-- Settles O12: with an entry on the stack the return takes the newest one, and with none it signals. -/
theorem returnPopsOrSignals : Obligations.ReturnPopsOrSignals := by
  refine fun s => ⟨encodedBy_ret, ?_⟩
  rcases s.sp.eq_zero_or_eq_succ with hempty | ⟨k, hk⟩
  · exact ⟨_, exec_ret_of_empty hempty, .inl ⟨hempty, rfl, frame_signal _ _⟩⟩
  · exact ⟨_, exec_ret_of_entry hk, .inr ⟨k, congrArg Fin.val hk, rfl, rfl, frame_afterReturn _ _⟩⟩

/-- Settles O14: with room on the stack the call writes the first free entry, and with none it signals. -/
theorem callPushesOrSignals : Obligations.CallPushesOrSignals := by
  refine fun nnn s => ⟨encodedBy_call nnn, ?_⟩
  rcases s.sp.eq_castSucc_or_eq_last with ⟨k, hk⟩ | hfull
  · refine ⟨_, exec_call_of_room nnn hk, .inr ⟨k, congrArg Fin.val hk, rfl, ?_, fun j hj => ?_, zextAddr_toNat nnn,
      frame_afterCall _ _ _⟩⟩
    · exact Vector.getElem_set_self k.isLt
    · exact Vector.getElem_set_ne k.isLt j.isLt fun e => hj (Fin.ext e.symm)
  · exact ⟨_, exec_call_of_full nnn hfull, .inl ⟨hfull, rfl, frame_signal _ _⟩⟩

theorem State.stackAt_afterCall (s : State) (k : Fin 16) (nnn : Addr12) : (s.afterCall k nnn).stackAt k = s.pc :=
  Vector.getElem_set_self k.isLt

/-- A return that takes the entry a call wrote leaves the stack's height as the call found it. -/
theorem frame_call_return {s : State} {k : Fin 16} (hk : s.sp = k.castSucc) (nnn : Addr12) (k1 k2 : Keys) (r1 r2 : Byte)
    (rest1 rest2 : List HostEvent) : Frame noReg (.pc :: .stack :: stepParts) s
      ((((s.inStep k1 r1 rest1).afterCall k nnn).inStep k2 r2 rest2).afterReturn k) := by
  have hcall : Frame noReg (.sp :: .pc :: .stack :: stepParts) s ((s.inStep k1 r1 rest1).afterCall k nnn) :=
    ((frame_inStep _ _ _ _).mono (fun _ => id) (by decide)).trans
      ((frame_afterCall _ _ _).mono (fun _ => id) (by decide))
  have hreturn (u : State) : Frame noReg (.sp :: .pc :: .stack :: stepParts) u ((u.inStep k2 r2 rest2).afterReturn k) :=
    ((frame_inStep _ _ _ _).mono (fun _ => id) (by decide)).trans
      ((frame_afterReturn _ _).mono (fun _ => id) (by decide))
  exact (hcall.trans (hreturn _)).drop (p := .sp) hk.symm

/-- Settles O15: the call pushes the advanced `pc`, the next step fetches the return at the call's target, and the return
takes that entry. -/
theorem callThenReturnComesBack : Obligations.CallThenReturnComesBack := by
  intro s nnn k1 k2 r1 r2 rest hs hroom hcall htarget
  obtain ⟨k, hk⟩ : ∃ k : Fin 16, s.sp = k.castSucc := ⟨⟨s.sp.val, hroom⟩, rfl⟩
  have hstep1 : step s = .next ((s.inStep k1 r1 (.step k2 r2 :: rest)).afterCall k nnn) := by
    rw [step_of_stepsWith hs, hcall]
    exact exec_call_of_room nnn hk
  have hnext : ((s.inStep k1 r1 (.step k2 r2 :: rest)).afterCall k nnn).stepsWith k2 r2 rest := ⟨hs.1, .inl rfl⟩
  have hword : ((s.inStep k1 r1 (.step k2 r2 :: rest)).afterCall k nnn).fetchWord = 0x00EE#16 := by
    rw [← htarget, ← zextAddr_toNat nnn]
    rfl
  have hreturn : decode 0x00EE#16 = .ret := by decide
  have hstep2 := step_of_stepsWith hnext
  rw [hword, hreturn, exec_ret_of_entry (k := k) rfl] at hstep2
  exact ⟨_, (runEvents_of_step hstep1 1).trans (runEvents_of_step hstep2 0), State.stackAt_afterCall _ _ nnn, hk.symm,
    rfl, rfl, frame_call_return hk nnn k1 k2 r1 r2 _ rest⟩

/-! ### The indexed jump and unknown opcodes -/

/-- Settles O18: the sum of an address below 4096 and a byte does not reach 65536. -/
theorem indexedJumpAddsV0 : Obligations.IndexedJumpAddsV0 := by
  refine fun nnn s => ⟨encodedBy_jpV0 nnn, _, rfl, ?_, frame_setPc _ _⟩
  have hn := nnn.isLt
  have hv := (s.getV 0).isLt
  rw [State.setPc_pc, BitVec.toNat_add, zextAddr_toNat, zextByte_toNat]
  exact Nat.mod_eq_of_lt (by omega)

/-- Settles O19: the default row's meaning is the state it is given, so a step at a listed word is the step's own part. -/
theorem unknownOpcodeIsANoOp : Obligations.UnknownOpcodeIsANoOp := by
  refine ⟨fun w s => ⟨s, rfl, rfl, Frame.refl _ _ s⟩, fun s keys rnd rest hs hword => ?_⟩
  have hstep : step s = .next (s.inStep keys rnd rest) := by
    rw [step_of_stepsWith hs, decode_eq_unknown_iff.2 hword]
    rfl
  exact ⟨_, hstep, rfl, rfl, frame_inStep s keys rnd rest⟩

end Sys2Proof.Machine
end

section
/-! PROOFS. The flag arithmetic, the shifts and the random byte (42_alu.md R160, R167 to R172) and glyph addresses
(43_index_memory.md R183). -/

namespace Sys2Proof.Machine

theorem flagByte_decide (p : Prop) [Decidable p] : flagByte (decide p) = if p then 1#8 else 0#8 := by
  by_cases h : p <;> simp [flagByte, h]

/-- Settles O22: the sum is taken in eight bits from the values on entry and written last; the carry is written first. -/
theorem addSetsCarry : Obligations.AddSetsCarry := by
  refine fun x y s => ⟨encodedBy_addReg x y, _, rfl, ?_, fun hx => ?_, frame_setV_setV _ _ _ _⟩
  · rw [State.getV_setV_same, BitVec.toNat_add]
  · rw [State.getV_vF_setV _ _ _ hx, carryFlag, flagByte_decide]
    exact apply_ite BitVec.toNat _ _ _

/-- The difference of two registers, read after the flag has been written to VF. -/
theorem State.getV_sub_setV (s : State) (x y z : Reg) (f : Byte) :
    ((s.setV vF f).setV x ((s.setV vF f).getV y - (s.setV vF f).getV z)).getV x =
      (if y = vF then f else s.getV y) - (if z = vF then f else s.getV z) := by
  rw [State.getV_setV_same, State.getV_setV, State.getV_setV]

/-- Settles O23: the flag is that of the values on entry, and it stands in the place of VF when the difference is taken. -/
theorem subtractSetsNoBorrow : Obligations.SubtractSetsNoBorrow := by
  refine fun x y s => ⟨encodedBy_subReg x y, encodedBy_subnReg x y,
    ⟨_, noBorrowFlag (s.getV x) (s.getV y), rfl, flagByte_decide _, State.getV_vF_setV _ _ _, ?_, ?_, ?_, ?_,
      frame_setV_setV _ _ _ _⟩,
    ⟨_, noBorrowFlag (s.getV y) (s.getV x), rfl, flagByte_decide _, State.getV_vF_setV _ _ _, ?_, ?_, ?_, ?_,
      frame_setV_setV _ _ _ _⟩⟩
  all_goals
    intro hx hy
    rw [State.getV_sub_setV]
    simp only [hx, hy, if_true, if_false, BitVec.sub_self]

/-- Settles O24: the bit shifted out goes to VF before the shift reads `V[x]`. -/
theorem shiftsSetTheBitShiftedOut : Obligations.ShiftsSetTheBitShiftedOut := by
  refine fun x y s => ⟨encodedBy_shr x y, encodedBy_shl x y,
    ⟨_, rfl, fun hx => ⟨?_, ?_⟩, fun hx => ?_, frame_setV_setV _ _ _ _⟩,
    ⟨_, rfl, fun hx => ⟨?_, ?_⟩, fun hx => ?_, frame_setV_setV _ _ _ _⟩⟩
  · rw [State.getV_setV_same, State.getV_setV_of_ne _ _ hx, BitVec.toNat_ushiftRight, Nat.shiftRight_eq_div_pow]
  · rw [State.getV_vF_setV _ _ _ hx, lowBitFlag_toNat]
  · rw [hx, State.getV_setV_same, State.getV_setV_same]
    rcases lowBitFlag_cases (s.getV vF) with hflag | hflag <;> rw [hflag] <;> rfl
  · rw [State.getV_setV_same, State.getV_setV_of_ne _ _ hx, BitVec.toNat_shiftLeft, Nat.shiftLeft_eq]
  · rw [State.getV_vF_setV _ _ _ hx, highBitFlag_toNat]
  · have hlt := (s.getV vF).isLt
    rw [hx, State.getV_setV_same, State.getV_setV_same, BitVec.toNat_shiftLeft, Nat.shiftLeft_eq, highBitFlag_toNat]
    omega

/-- Settles O25: the meaning is one writing of `V[x]`, and AND acts on each bit alone. -/
theorem randomIsMasked : Obligations.RandomIsMasked :=
  fun x nn s => ⟨encodedBy_rnd x nn, exec_of_setV_bits (b := s.rnd &&& nn) rfl fun _ => BitVec.getLsbD_and⟩

/-- Settles O27: the highest glyph address, 80 + 255 * 5, is below 65536. -/
theorem glyphAddressIsFiveApart : Obligations.GlyphAddressIsFiveApart := by
  refine fun x s => ⟨encodedBy_ldGlyph x, _, rfl, ?_, frame_setIndex _ _⟩
  have hlt := (s.getV x).isLt
  simp only [glyphAddr, BitVec.toNat_add, BitVec.toNat_mul, zextByte_toNat, BitVec.toNat_ofNat]
  omega

end Sys2Proof.Machine
end

section
/-! PROOFS. Timer access and the keypad (45_timer_keypad.md R215 to R221, 60_exceptions.md R249). -/

namespace Sys2Proof.Machine

theorem State.soundActive_iff (s : State) : s.soundActive = true ↔ s.soundTimer.toNat > 0 := by
  rw [State.soundActive, decide_eq_true_iff]
  exact BitVec.lt_def

/-- Settles O58: a byte above the zero byte is one of a value above 0. -/
theorem soundActiveIsTimerAboveZero : Obligations.SoundActiveIsTimerAboveZero := State.soundActive_iff

/-- Settles O34: each meaning is one writing of a register or of a timer. -/
theorem timersAreReadAndWritten : Obligations.TimersAreReadAndWritten := by
  refine fun x s => ⟨encodedBy_ldFromDelay x, encodedBy_ldDelay x, encodedBy_ldSound x, ?_, ?_, ?_⟩
  · exact ⟨_, rfl, State.getV_setV_same _ _ _, frame_setV _ _ _⟩
  · exact ⟨_, rfl, rfl, frame_setDelayTimer _ _⟩
  · exact ⟨_, rfl, rfl, State.soundActive_iff _, frame_setSoundTimer _ _⟩

/-- The key a register selects is that of its low four bits (R218). -/
theorem keyIndex_eq (b : Byte) : keyIndex b = b.toNat % 16 := by
  rw [keyIndex, BitVec.toNat_and]
  exact Nat.and_two_pow_sub_one_eq_mod _ 4

/-- Settles O35: both meanings are skips, on the key being pressed and on its opposite. -/
theorem keySkipsTestTheSnapshot : Obligations.KeySkipsTestTheSnapshot := by
  refine fun x s => ⟨encodedBy_skp x, encodedBy_sknp x, ?_⟩
  rw [← keyIndex_eq]
  constructor
  · obtain ⟨t, hexec, hpc, hframe⟩ := exec_of_skipIf (i := .skp x) (c := s.keyPressed (keyIndex (s.getV x))) rfl Iff.rfl
    exact ⟨t, hexec, hframe, hpc⟩
  · obtain ⟨t, hexec, hpc, hframe⟩ :=
      exec_of_skipIf (i := .sknp x) (c := !s.keyPressed (keyIndex (s.getV x))) rfl
        (iff_of_eq (Bool.not_eq_true' _))
    exact ⟨t, hexec, hframe, hpc⟩

/-- Settles O36: no key is the lowest one exactly when the snapshot is zero. -/
theorem waitForKeyTakesTheLowestKey : Obligations.WaitForKeyTakesTheLowestKey := by
  refine fun x s => ⟨encodedBy_waitKey x, fun hnone => ?_, fun hsome => ?_⟩
  · exact ⟨_, exec_waitKey_of_none x hnone, rfl, rfl, rfl, frame_wait _ _ _⟩
  · obtain ⟨k, hkey⟩ := Option.ne_none_iff_exists'.1 (mt lowestKey_eq_none.1 hsome)
    obtain ⟨hk, hpressed, hlower⟩ := lowestKey_eq_some.1 hkey
    refine ⟨_, k, exec_waitKey_of_some x hkey, hk, hpressed, hlower, ?_, rfl, frame_setV_noWait _ _ _⟩
    calc ((s.setV x (BitVec.ofNat 8 k)).getV x).toNat
        = k % 256 := by rw [State.getV_setV_same, BitVec.toNat_ofNat]
      _ = k := Nat.mod_eq_of_lt (by omega)

end Sys2Proof.Machine
end

section
/-! PROOFS. The draw as one formula, two draws of one sprite, and the framebuffer as one sequence (44_display.md R201 to
R203, 10_state.md R28). -/

namespace Sys2Proof.Machine

/-! ### The sprite in memory -/

theorem State.readBytes_getD (s : State) (a len k : Nat) :
    (s.readBytes a len).getD k 0#8 = if k < len then s.readByte (a + k) else 0#8 := by
  by_cases hk : k < len
  · rw [if_pos hk, ← List.getElem_eq_getD (h := by rwa [State.readBytes_length]), State.readBytes_getElem]
  · rw [if_neg hk, List.getD_eq_default _ _ (by rw [State.readBytes_length]; omega)]

/-- The sprite bits that a draw plots are those of the sprite read at `I` (R201, R202). -/
theorem spriteBit_readBytes (s : State) (x0 y0 n cx cy : Nat) :
    spriteBit x0 y0 (s.readBytes s.index.toNat n) cx cy = spriteCovers s x0 y0 n cx cy := by
  rw [spriteBit, spriteCovers, State.readBytes_getD]
  by_cases hrow : y0 ≤ cy
  · have hlt : cy - y0 < n ↔ cy < y0 + n := by omega
    by_cases hn : cy < y0 + n
    · simp [hrow, hlt, hn]
    · simp [hlt, hn]
  · simp [hrow]

/-- The sprite depends on memory and `I` alone. -/
theorem spriteCovers_congr {s t : State} (hmem : ∀ a, t.readByte a = s.readByte a) (hindex : t.index = s.index)
    (x0 y0 n : Nat) : spriteCovers t x0 y0 n = spriteCovers s x0 y0 n := by
  funext cx cy
  rw [spriteCovers, spriteCovers, hmem, hindex]

/-! ### What DXYN leaves -/

/-- The sprite that DXYN draws, on the screen: started at the cell that `V[x]` and `V[y]` name (R202). -/
def State.sprite (s : State) (x y : Reg) (n : BitVec 4) : Nat → Nat → Bool :=
  spriteCovers s ((s.getV x).toNat % 64) ((s.getV y).toNat % 32) n.toNat

section
variable {x y : Reg} {n : BitVec 4} {s t : State}

theorem cell_of_exec_drw (h : exec (.drw x y n) s = .next t) {cx cy : Nat} (hx : cx < 64) (hy : cy < 32) :
    t.fb.cell cx cy = (s.fb.cell cx cy != s.sprite x y n cx cy) := by
  obtain rfl := Host.Outcome.next.inj h
  rw [State.sprite, ← spriteBit_readBytes]
  exact (drawSprite_spec s.fb _ _ _).1 cx hx cy hy

theorem collision_of_exec_drw (h : exec (.drw x y n) s = .next t) :
    t.getV vF = 1#8 ↔ ∃ cx < 64, ∃ cy < 32, s.sprite x y n cx cy = true ∧ s.fb.cell cx cy = true := by
  obtain rfl := Host.Outcome.next.inj h
  have hone (c : Bool) : flagByte c = 1#8 ↔ c = true := by cases c <;> decide
  rw [State.getV_setV_same, hone]
  simp only [State.sprite, ← spriteBit_readBytes]
  exact (drawSprite_spec s.fb _ _ _).2

/-- After a draw, the same sprite is drawn from every start that is the same cell. -/
theorem sprite_of_exec_drw (h : exec (.drw x y n) s = .next t) (hx : (t.getV x).toNat % 64 = (s.getV x).toNat % 64)
    (hy : (t.getV y).toNat % 32 = (s.getV y).toNat % 32) : t.sprite x y n = s.sprite x y n := by
  have hframe := exec_frame h
  have hmem := hframe.same (p := .memory) (by simp [changedParts])
  have hindex := hframe.same (p := .index) (by simp [changedParts])
  rw [State.sprite, State.sprite, hx, hy, spriteCovers_congr hmem hindex]

end

/-- Settles O32: a cell is inverted by each set bit on it, and the flag, which is 0 or 1, is 1 exactly on a collision. -/
theorem drawXorsTheSpriteAndReportsCollision : Obligations.DrawXorsTheSpriteAndReportsCollision := by
  intro x y n s
  obtain ⟨t, h⟩ := exec_completes (.drw x y n) s
  have hflag := exec_flag_cases h trivial id
  refine ⟨encodedBy_drw x y n, t, s.sprite x y n, h, rfl, fun cx hx cy hy => cell_of_exec_drw h hx hy,
    (collision_of_exec_drw h).2, fun hnone => hflag.resolve_right (mt (collision_of_exec_drw h).1 hnone), ?_⟩
  obtain rfl := Host.Outcome.next.inj h
  exact frame_setFb_setV _ _ _ _

/-- Settles O33: each cell is inverted twice by the same sprite bit, and where that bit is set the first draw has turned on
exactly the cells that were off. -/
theorem drawingTwiceRestoresTheScreen : Obligations.DrawingTwiceRestoresTheScreen := by
  intro x y n s t u hst htu hx hy
  have hsprite := sprite_of_exec_drw hst hx hy
  constructor
  · intro cx hcx cy hcy
    calc u.fb.cell cx cy
        = (t.fb.cell cx cy != s.sprite x y n cx cy) := by rw [cell_of_exec_drw htu hcx hcy, hsprite]
      _ = ((s.fb.cell cx cy != s.sprite x y n cx cy) != s.sprite x y n cx cy) := by rw [cell_of_exec_drw hst hcx hcy]
      _ = s.fb.cell cx cy := by rw [Bool.bne_assoc, bne_self_eq_false, Bool.bne_false]
  · rw [collision_of_exec_drw htu, hsprite]
    refine exists_congr fun cx => and_congr_right fun hcx => exists_congr fun cy => and_congr_right fun hcy => ?_
    rw [cell_of_exec_drw hst hcx hcy, and_comm]
    refine and_congr_left fun hset => ?_
    have hset' : s.sprite x y n cx cy = true := hset
    rw [hset', Bool.bne_true, Bool.not_eq_true']

/-! ### The framebuffer as one sequence -/

theorem State.fbSequence_eq (s : State) : s.fbSequence = s.fb.flatten.toList := by
  simp only [State.fbSequence, Vector.flatten, Vector.toList, Array.toList_flatten, Array.toList_map, List.map_map]
  rfl

/-- Settles O59: the sequence is the rows one after the other, 64 cells each. -/
theorem framebufferSequenceIsRowMajor : Obligations.FramebufferSequenceIsRowMajor := by
  refine fun s => ⟨?_, fun cx hx cy hy => ?_⟩
  · rw [State.fbSequence_eq, Vector.length_toList]
  · have hlt : cy * 64 + cx < 32 * 64 := by omega
    have hrow : (cy * 64 + cx) / 64 = cy := by omega
    have hcol : (cy * 64 + cx) % 64 = cx := by omega
    rw [State.fbSequence_eq, Vector.getElem?_toList, Vector.getElem?_eq_getElem hlt, Vector.getElem_flatten,
      State.fbOut, FrameBuffer.cell_of_lt _ hx hy]
    simp only [hrow, hcol]

end Sys2Proof.Machine
end

section
/-! PROOFS. The reset, the load, the boot order, the Step Driver's frame, ticks and finished programs (40_step_cycle.md R125,
60_exceptions.md R250, R251, 70_reset_and_hazards.md R270 to R284). -/

namespace Sys2Proof.Machine

/-! ### The reset state -/

theorem Memory.initial_font (font : FontTable) {k : Nat} (h : k < 80) : Memory.initial font (80 + k) = font[k] := by
  have hrange : 80 ≤ 80 + k ∧ 80 + k < 160 := by omega
  simp only [Memory.initial, dif_pos hrange, Nat.add_sub_cancel_left]

theorem Memory.initial_outside (font : FontTable) {a : Nat} (h : a < 80 ∨ 160 ≤ a) : Memory.initial font a = 0#8 :=
  dif_neg (by omega)

/-- After a reset every address reads as its reset contents (R36, R271). -/
theorem State.readByte_resetWith (font : FontTable) {a : Nat} (h : a < 4096) :
    (State.resetWith font).readByte a = Memory.initial font a :=
  congrArg (Memory.initial font) (Nat.mod_eq_of_lt h)

theorem State.getV_resetWith (font : FontTable) (r : Reg) : (State.resetWith font).getV r = 0#8 :=
  Vector.getElem_replicate r.isLt

theorem State.stackAt_resetWith (font : FontTable) (k : Fin 16) : (State.resetWith font).stackAt k = 0#16 :=
  Vector.getElem_replicate k.isLt

/-- Settles O52: a reset event leaves the reset state of the machine's own FONT. -/
theorem resetGivesTheResetState : Obligations.ResetGivesTheResetState := by
  intro s rest h
  refine ⟨_, step_of_reset h, rfl, fun a ha => ?_, fun k hk => ?_, fun a hlo hhi => ?_, State.getV_resetWith s.font,
    State.stackAt_resetWith s.font, rfl, rfl, rfl, rfl, rfl, fun cx _ cy _ => FrameBuffer.cell_blank cx cy, rfl, rfl, rfl,
    rfl, rfl⟩
  · exact (State.readByte_resetWith s.font (by omega)).trans (Memory.initial_outside s.font (.inl ha))
  · exact (State.readByte_resetWith s.font (by omega)).trans (Memory.initial_font s.font hk)
  · exact (State.readByte_resetWith s.font hhi).trans (Memory.initial_outside s.font (.inr hlo))

/-! ### What a load leaves in memory -/

section
variable (s : State) {bytes : List Byte}

theorem State.load_loadStatus (h : bytes.length ≤ 3584) : (s.load bytes).loadStatus = .accepted := by
  rw [State.load_of_le s h]

/-- Byte `k` of an image that fits is found at `512 + k` (R274). -/
theorem State.readByte_load (h : bytes.length ≤ 3584) {k : Nat} (hk : k < bytes.length) :
    (s.load bytes).readByte (512 + k) = bytes.getD k 0#8 := by
  rw [State.load_of_le s h, List.getD_eq_getElem _ _ hk]
  exact State.readByte_storeBytes s 512 k bytes hk (by omega)

/-- The addresses below and above an image read as before (R274). -/
theorem State.readByte_load_outside (h : bytes.length ≤ 3584) {a : Nat} (ha : a < 4096)
    (hout : a < 512 ∨ 512 + bytes.length ≤ a) : (s.load bytes).readByte a = s.readByte a := by
  rw [State.load_of_le s h]
  exact State.readByte_storeBytes_outside s 512 a bytes fun k hk => by omega

/-- The load event takes the event and changes memory and the load's own record (R274). -/
theorem frame_load_event (bytes : List Byte) (rest : List HostEvent) :
    Frame noReg [.memory, .loadStatus, .loaded, .agenda, .clock] s
      (State.load { s with agenda := rest, clock := s.clock + 1 } bytes) :=
  (frame_agenda_clock _ s rest _ (by decide) (by decide)).trans ((frame_load _ bytes).mono (fun _ => id) (by decide))

theorem agenda_of_load_event (bytes : List Byte) (rest : List HostEvent) :
    (State.load { s with agenda := rest, clock := s.clock + 1 } bytes).agenda = rest :=
  (frame_load { s with agenda := rest, clock := s.clock + 1 } bytes).same (p := .agenda) (by decide)

end

/-- Settles O53: a load that fits is a store at 512 and a record, in every state and so as an event. -/
theorem loadCopiesTheImage : Obligations.LoadCopiesTheImage := by
  refine ⟨fun s bytes h => ⟨s.load_loadStatus h, fun k hk => s.readByte_load h hk,
    fun a ha hout => s.readByte_load_outside h ha hout, frame_load s bytes⟩, fun s bytes rest hload h => ?_⟩
  exact ⟨_, step_of_loadsWith hload, State.load_loadStatus _ h, State.load_loaded _ _, agenda_of_load_event s bytes rest,
    fun k hk => State.readByte_load _ h hk, fun a ha hout => State.readByte_load_outside _ h ha hout,
    frame_load_event s bytes rest⟩

/-! ### The launch state -/

/-- A machine that keeps the boot order and is not loaded yet differs from its reset state in the host's agenda and the
event count alone (R276). -/
theorem frame_resetWith {s : State} (hboot : s.BootOrder) (hloaded : s.loaded = false) :
    Frame noReg [.agenda, .clock] (State.resetWith s.font) s := by
  have hframe := frame_agenda_clock noReg (may := [.agenda, .clock]) (State.resetWith s.font) s.agenda s.clock (by decide)
    (by decide)
  rwa [← hboot.1 hloaded] at hframe

theorem started_of_not_loaded {s : State} (hboot : s.BootOrder) (hloaded : s.loaded = false) : s.started = false :=
  Bool.eq_false_iff.2 fun hstarted => nomatch hloaded.symm.trans (hboot.2 hstarted).1

/-- The frame of a launch: from the reset state to the running machine (R276). -/
theorem frame_launch {s : State} (hboot : s.BootOrder) (hloaded : s.loaded = false) {bytes : List Byte}
    (h : bytes.length ≤ 3584) (rest : List HostEvent) :
    Frame noReg [.memory, .loaded, .agenda, .clock] (State.resetWith s.font)
      (State.load { s with agenda := rest, clock := s.clock + 1 } bytes) := by
  have hframe := ((frame_resetWith hboot hloaded).mono (fun _ => id) (by decide)).trans (frame_load_event s bytes rest)
  exact (hframe.mono (fun _ => id) (by decide)).drop (p := .loadStatus) (State.load_loadStatus _ h)

/-- Settles O54: before the load the machine is in its reset state, and the load adds the image. -/
theorem everyRunStartsFromTheLaunchState : Obligations.EveryRunStartsFromTheLaunchState := by
  refine ⟨fun s bytes rest hboot hload h => ?_, fun s hboot hloaded hnil => ?_⟩
  · have hloaded := hload.1
    have hreset := (frame_resetWith hboot hloaded).same (p := .memory) (by decide)
    exact ⟨_, step_of_loadsWith hload, ⟨State.load_loaded _ _, State.load_loadStatus _ h⟩,
      agenda_of_load_event s bytes rest, fun k hk => State.readByte_load _ h hk,
      fun a ha hout => (State.readByte_load_outside _ h ha hout).trans (hreset a), frame_launch hboot hloaded h rest⟩
  · have hload : s.loadsWith ((Config.freeImage s.clock).take 3584) [] :=
      ⟨hloaded, started_of_not_loaded hboot hloaded, .inr ⟨hnil, rfl, rfl⟩⟩
    exact ⟨_, step_of_loadsWith hload, ⟨State.load_loaded _ _, State.load_loadStatus _ (List.length_take_le _ _)⟩,
      agenda_of_load_event s _ []⟩

/-! ### Breaches of the boot order -/

theorem step_of_breach {s : State} {e : HostEvent} {rest : List HostEvent} {r : Refusal} (h : s.agenda = e :: rest)
    (hbreach : s.bootBreach e = some r) : step s = .refused r := by
  rw [step, State.takeEvent_of_agenda h]
  exact perform_of_breach hbreach

/-- After a refused load a step, a tick and a load are refused, each by its own name (R275). -/
theorem step_after_refusedLoad {s : State} {e : HostEvent} {rest : List HostEvent} (h : s.agenda = e :: rest)
    (hstatus : s.loadStatus = .programTooLarge) (hloaded : s.loaded = true) (hstarted : s.started = false) :
    ((∃ keys rnd, e = .step keys rnd) → step s = .refused .steppedAfterRefusedLoad) ∧
    (e = .tick → step s = .refused .tickedOutOfOrder) ∧
    ((∃ image, e = .load image) → step s = .refused .loadedTwice) := by
  refine ⟨?_, ?_, ?_⟩
  · rintro ⟨keys, rnd, rfl⟩
    exact step_of_breach h (by simp [State.bootBreach, hstatus, hloaded])
  · rintro rfl
    exact step_of_breach h (by simp [State.bootBreach, hstatus])
  · rintro ⟨image, rfl⟩
    exact step_of_breach h (by simp [State.bootBreach, hloaded, hstarted])

/-- Settles O55: the oversize load only records itself, and each breach of the boot order has its name. -/
theorem bootOrderBreachesHaveNoMeaning : Obligations.BootOrderBreachesHaveNoMeaning := by
  refine ⟨fun s bytes e rest hload h => ?_, fun s keys rnd rest hloaded hagenda => ?_, fun s rest hloaded hagenda => ?_,
    fun s bytes rest hagenda hloaded hstarted => ?_, fun s bytes rest hagenda hstarted => ?_⟩
  · have hstep := step_of_loadsWith hload
    have hevent : Frame noReg [.loadStatus, .loaded, .agenda, .clock] s
        { s with agenda := e :: rest, clock := s.clock + 1 } := frame_agenda_clock _ s _ _ (by decide) (by decide)
    have hrecord := frame_loadRecord { s with agenda := e :: rest, clock := s.clock + 1 } .programTooLarge
    have hframe := hevent.trans (hrecord.mono (fun _ => id) (by decide))
    rw [State.load_of_gt _ h] at hstep
    obtain ⟨-, hstarted, -⟩ := hload
    exact ⟨_, hstep, rfl, hframe, step_after_refusedLoad rfl rfl rfl hstarted⟩
  · exact step_of_breach hagenda (by simp [State.bootBreach, hloaded])
  · exact step_of_breach hagenda (by simp [State.bootBreach, hloaded])
  · exact step_of_breach hagenda (by simp [State.bootBreach, hloaded, hstarted])
  · exact step_of_breach hagenda (by simp [State.bootBreach, hstarted])

/-! ### Runs of ticks and of steps -/

/-- A run of `n` ticks takes `n` from the delay timer and stops at 0 (R250). -/
theorem runEvents_ticks {s : State} {n : Nat} {rest : List HostEvent} (hrun : s.running)
    (h : s.agenda = List.replicate n .tick ++ rest) :
    ∃ t, runEvents n s = .next t ∧ t.agenda = rest ∧ t.delayTimer.toNat = s.delayTimer.toNat - n := by
  induction n generalizing s with
  | zero => exact ⟨s, rfl, h, rfl⟩
  | succ n ih =>
    have hstep := step_of_tick hrun h
    obtain ⟨t, hrunEvents, hagenda, hdelay⟩ :=
      ih (s := State.tick { s with agenda := List.replicate n .tick ++ rest, clock := s.clock + 1 }) hrun rfl
    refine ⟨t, (runEvents_of_step hstep n).trans hrunEvents, hagenda, hdelay.trans ?_⟩
    have hcount : (State.tick { s with agenda := List.replicate n .tick ++ rest, clock := s.clock + 1 }).delayTimer.toNat =
      if s.delayTimer.toNat > 0 then s.delayTimer.toNat - 1 else 0 := countDown_toNat _
    rw [hcount]
    split <;> omega

/-- Settles O51: FX15 puts `V[x]` into the delay timer, the ticks count it down, and FX07 copies it. -/
theorem delayReadsBackLessTheTicks : Obligations.DelayReadsBackLessTheTicks := by
  intro n x y s s1 rest hrun h hagenda
  have hdelay : s1.delayTimer = s.getV x := by
    obtain rfl := Host.Outcome.next.inj h
    rfl
  obtain ⟨s2, hticks, hrest, hcount⟩ := runEvents_ticks (exec_running hrun h) hagenda
  exact ⟨s2, _, hticks, hrest, rfl, by rw [State.getV_setV_same, hcount, hdelay]⟩

theorem exec_agenda {i : Instr} {s t : State} (h : exec i s = .next t) : t.agenda = s.agenda := by
  have hfields := exec_driverFields h
  simp only [State.driverFields, Prod.mk.injEq] at hfields
  obtain ⟨-, -, -, hagenda, -⟩ := hfields
  exact hagenda

/-- A run of steps of a running machine completes and leaves it running (R123, R125). -/
theorem runEvents_steps {s : State} {inputs : List (Keys × Byte)} {rest : List HostEvent} (hrun : s.running)
    (h : s.agenda = inputs.map (fun i => .step i.1 i.2) ++ rest) :
    ∃ t, runEvents inputs.length s = .next t ∧ t.running ∧ t.agenda = rest := by
  induction inputs generalizing s with
  | nil => exact ⟨s, rfl, hrun, h⟩
  | cons input inputs ih =>
    have hnext : s.stepsWith input.1 input.2 (inputs.map (fun i => .step i.1 i.2) ++ rest) := ⟨hrun, .inl h⟩
    obtain ⟨u, hexec⟩ := exec_completes (decode s.fetchWord) (s.inStep input.1 input.2 _)
    have hstart : (s.inStep input.1 input.2 (inputs.map (fun i => .step i.1 i.2) ++ rest)).running := hrun
    obtain ⟨t, hrunEvents, ht⟩ := ih (exec_running hstart hexec) (exec_agenda hexec)
    exact ⟨t, (runEvents_of_step ((step_of_stepsWith hnext).trans hexec) _).trans hrunEvents, ht⟩

/-- Settles O56: the steps of a frame complete and leave the machine running, so the tick is in order. -/
theorem driverFrameIsStepsThenOneTick : Obligations.DriverFrameIsStepsThenOneTick := by
  intro inputs s rest hrun h
  rw [driverFrame, List.append_assoc] at h
  obtain ⟨t, hsteps, hrun', hagenda⟩ := runEvents_steps hrun h
  have htick := (runEvents_add 1 hsteps).trans (runEvents_of_step (step_of_tick hrun' hagenda) 0)
  have hcount (b : Byte) : (countDown b).toNat = b.toNat - 1 := by
    rw [countDown_toNat]
    split <;> omega
  exact ⟨t, _, hsteps, hagenda, htick, rfl, hcount _, hcount _,
    (frame_agenda_clock _ t rest _ (by decide) (by decide)).tick (by decide) (by decide)⟩

/-! ### Finished programs -/

/-- An event that answers and is a step happens on a running machine. -/
theorem stepsWith_of_takeEvent {s t : State} {keys : Keys} {rnd : Byte} (h : step s = .next t)
    (hevent : s.takeEvent.1 = .step keys rnd) : ∃ rest, s.stepsWith keys rnd rest := by
  rcases step_cases h with ⟨keys', rnd', rest, hsteps, hevent', -⟩ | ⟨rest, hagenda, -⟩ | ⟨rest, hagenda, -⟩ |
    ⟨bytes, rest, -, hevent', -⟩
  · obtain ⟨rfl, rfl⟩ := HostEvent.step.inj (hevent.symm.trans hevent')
    exact ⟨rest, hsteps⟩
  · rw [State.takeEvent_of_agenda hagenda] at hevent
    cases hevent
  · rw [State.takeEvent_of_agenda hagenda] at hevent
    cases hevent
  · cases hevent.symm.trans hevent'

/-- An event that answers and is a tick is that tick, once the event has been taken. -/
theorem tick_of_takeEvent {s t : State} (h : step s = .next t) (hevent : s.takeEvent.1 = .tick) :
    ∃ rest, t = State.tick { s with agenda := rest, clock := s.clock + 1 } := by
  rcases step_cases h with ⟨keys, rnd, rest, -, hevent', -⟩ | ⟨rest, -, -, ht⟩ | ⟨rest, hagenda, -⟩ |
    ⟨bytes, rest, -, hevent', -⟩
  · cases hevent.symm.trans hevent'
  · exact ⟨rest, ht⟩
  · rw [State.takeEvent_of_agenda hagenda] at hevent
    cases hevent
  · cases hevent.symm.trans hevent'

/-- Settles O57: the jump puts `pc` back onto itself, and a tick touches neither `pc` nor memory. -/
theorem finishedProgramStaysFinished : Obligations.FinishedProgramStaysFinished := by
  rintro s t ⟨nnn, hdecode, hself, hlt⟩ h
  constructor
  · rintro ⟨keys, rnd, hevent⟩
    obtain ⟨rest, hsteps⟩ := stepsWith_of_takeEvent h hevent
    have hframe := frame_inStep_setPc s keys rnd rest
    have hjump := step_of_selfJump hsteps hdecode (by rw [← hself, zextAddr_toNat])
    obtain rfl := Host.Outcome.next.inj (hjump.symm.trans h)
    refine ⟨⟨nnn, ?_, hself, hlt⟩, hframe⟩
    rw [hframe.fetchWord_eq (by decide) (by decide), hdecode]
  · intro hevent
    obtain ⟨rest, rfl⟩ := tick_of_takeEvent h hevent
    exact ⟨⟨nnn, hdecode, hself, hlt⟩,
      (frame_agenda_clock _ s rest _ (by decide) (by decide)).tick (by decide) (by decide)⟩

end Sys2Proof.Machine
end
